-- ==== Sys2Proof/Word.lean ====
section
/-! DEFINITION. The block's plain data types and fixed constants (spec/00_scope.md R3), and the two ways this model
builds a store of a fixed number of elements. -/

namespace Sys2Proof

/-- A host register's 32 bits (R63: every host access is one 32-bit register). -/
abbrev Word := BitVec 32

/-- One pixel: a "32-bit unsigned value", compared by raw bit pattern only (R3, R146). -/
abbrev Pixel := BitVec 32

/-- A DuplicateMask: 8 bits, bit i = lane i (R145). -/
abbrev Mask := BitVec 8

/-- One word of the RleMaskBlock (R26). -/
abbrev Block := BitVec 64

/-- An entry of the permutation table: a lane number in 0..7, stored in 3 bits (R23). -/
abbrev Lane := BitVec 3

/-- SCAN and OUT: 256 elements of 32 bits (R24, R25). -/
abbrev Pixels := Vector Pixel 256

/-- One 64-bit word of the RleMaskBlock held as its 8 bytes, bits 7:0 first: by R26 and R164 each byte is the
DuplicateMask of one group, and it is written as one. -/
abbrev BlockBytes := Vector Mask 8

/-- The RleMaskBlock: exactly 4 words of 64 bits (R26). -/
abbrev Blocks := Vector BlockBytes 4

/-- One row of the permutation table: 8 lane numbers (R23). -/
abbrev Row := Vector Lane 8

/-- The permutation table: 256 rows, one per mask value (R23). -/
abbrev Table := Vector Row 256

/-- The sentinel: the value of the nonexistent left neighbour of pixel 0 (R3, R143). -/
abbrev sentinel : Pixel := 0#32

/-- The 8 lanes of a group, the lowest index first. -/
abbrev lanes : List (Fin 8) := [0, 1, 2, 3, 4, 5, 6, 7]

/-- The store whose element i is f i, for i from 0 to n - 1. -/
def tabulate (n : Nat) {α : Type} (f : Nat → α) : Vector α n :=
  ⟨((List.range n).map f).toArray, by simp⟩

/-- The 8 lane values f 0 to f 7. -/
def tabulate8 {α : Type} (f : Fin 8 → α) : Vector α 8 :=
  ⟨(lanes.map f).toArray, rfl⟩

end Sys2Proof
end

