-- ==== Sys2Proof/Syntax.lean ====
section
/-! DEFINITION. The block's instruction set: the two commands of spec/opcode_table.json. -/

namespace Sys2Proof

/-- The commands a host starts by writing one word to CMD (R91). A command word has no register field, no immediate
field and no mode field (R90), so neither constructor has an argument; what a command works on is the context whose
CMD was written (R94). -/
inductive Instr where
  /-- LUTBUILD, command word 0x00000001 (R111). -/
  | lutbuild
  /-- ENCODE, command word 0x00000002 (R112). -/
  | encode
  deriving DecidableEq, Repr

end Sys2Proof
end

