-- ==== Sys2Proof/Decode.lean ====
section
/-! DEFINITION. Decoding a command word (spec/30_encoding.md R90 to R97), total on any word and on any bytes, and the
encoder written from the same table (R91). -/

namespace Sys2Proof

/-- Why a command word is refused: the two ways of R92 and R93. Both raise IllegalCommand. -/
inductive DecodeError where
  /-- Bits 31:8 are not all 0 (R92). -/
  | reservedBits
  /-- The operation code is neither 0x01 nor 0x02 (R93). -/
  | reservedOpcode
  /-- Fewer or more than the 4 bytes of a command word (R95: there is no other length). -/
  | wrongLength
  deriving DecidableEq, Repr

/-- The ZERO field of a command word, bits 31:8 (R90). -/
def zeroField (w : Word) : BitVec 24 := w.extractLsb' 8 24

/-- The OPC field of a command word, bits 7:0 (R90). -/
def opcField (w : Word) : BitVec 8 := w.extractLsb' 0 8

/-- R97: the decoder. -/
def decode (w : Word) : Except DecodeError Instr :=
  if zeroField w ≠ 0#24 then .error .reservedBits
  else if opcField w = 0x01#8 then .ok .lutbuild
  else if opcField w = 0x02#8 then .ok .encode
  else .error .reservedOpcode

/-- A 32-bit register from its 4 bytes, the byte at the lowest address first (R64). -/
def wordOfBytes (b0 b1 b2 b3 : BitVec 8) : Word := b3 ++ b2 ++ b1 ++ b0

/-- Decoding the bytes of a command word, in the byte order of R64. -/
def decodeBytes : List (BitVec 8) → Except DecodeError Instr
  | [b0, b1, b2, b3] => decode (wordOfBytes b0 b1 b2 b3)
  | _ => .error .wrongLength

/-- R91: the command word of each command. -/
def encode : Instr → Word
  | .lutbuild => 0x00000001#32
  | .encode => 0x00000002#32

/-- Byte k of the word w in the byte order of R64: bits 8k+7 to 8k. -/
def byteOfWord (w : Word) (k : Nat) : BitVec 8 := w.extractLsb' (8 * k) 8

/-- The 4 bytes of a command word as stored (R64). -/
def encodeBytes (i : Instr) : List (BitVec 8) :=
  [byteOfWord (encode i) 0, byteOfWord (encode i) 1, byteOfWord (encode i) 2, byteOfWord (encode i) 3]

/-- The command that the opcode table's bits name: bits from nbits up are 0, and a command is one 32-bit word (R95),
laid out in its 4 bytes and given to the decoder. -/
def decodeTableWord (nbits w : Nat) : Option Instr :=
  let v := w % 2 ^ nbits
  if 2 ^ 32 ≤ v then none
  else
    let x := BitVec.ofNat 32 v
    (decodeBytes [byteOfWord x 0, byteOfWord x 1, byteOfWord x 2, byteOfWord x 3]).toOption

end Sys2Proof
end

