-- ==== Sys2Proof/Config.lean ====
section
/-! DEFINITION. What an implementation fixes (the parameters of R4) and the values the spec leaves unspecified, each as
a constant with no body, so that nothing can be proved from what it happens to be. -/

namespace Sys2Proof

/-- The three implementation parameters of R4. ACCEL_EN is sampled at the end of reset and constant until the next
reset (R21), so a state holds the sampled value; NCTX and BASE never change. -/
structure Params where
  /-- ACCEL_EN, the capability signal. -/
  accelEn : Bool
  /-- NCTX, the number of encoder contexts. -/
  nctx : Nat
  /-- BASE, the byte address of context 0's register page. -/
  base : Nat
  deriving DecidableEq, Repr

/-- The bytes of one context's register page (R61). -/
abbrev pageBytes : Nat := 0x1000

namespace Config

/-- The parameters `State.reset` takes: NCTX = 1 is R4's default. The spec leaves ACCEL_EN and BASE open; the model
takes ACCEL_EN = 1, under which the whole datapath can run, and BASE = 0.
DESIGN CHOICE (notes/assumptions/1.md). Unsafe for a claim about `State.reset` alone; every statement about a step
holds for both values of ACCEL_EN, every BASE and any number of contexts. -/
def platform : Params := { accelEn := true, nctx := 1, base := 0 }

/-- The content of SCAN[i] of context c after reset number r: unspecified (R46, 93_implementation_defined.md U4).
DESIGN CHOICE (notes/assumptions/2.md): a free value. -/
opaque scanAtReset (r c i : Nat) : Pixel

/-- The content of OUT[i] of context c after reset number r: unspecified (R46, U4).
DESIGN CHOICE (notes/assumptions/2.md): a free value. -/
opaque outAtReset (r c i : Nat) : Pixel

/-- The content of RLE[n] of context c after reset number r: unspecified (R46, U4).
DESIGN CHOICE (notes/assumptions/2.md): a free value. -/
opaque rleAtReset (r c n : Nat) : Block

/-- The content of LUT[m][k] after reset number r: unspecified, and read by no rule while LUT_VALID = 0 (R23, U5).
DESIGN CHOICE (notes/assumptions/2.md): a free value. -/
opaque lutAtReset (r m k : Nat) : Lane

end Config
end Sys2Proof
end

