-- ==== Sys2Proof/Machine/State.lean ====
section
/-! DEFINITION. The machine's state as plain data (spec/10_state.md R20 to R46), what the environment and the agents may
do next (R8, R9, R77), the state after reset (R46), and the reasons a step can stop. -/

namespace Sys2Proof.Machine

/-- PHASE (R39). -/
inductive Phase where
  /-- No run in progress. -/
  | idle
  /-- From the start of an ENCODE's run until its 32nd group step has completed. -/
  | run
  deriving DecidableEq, Repr

/-- The direction of a host access, with the 32 bits of write data of a write (R77). -/
inductive Direction where
  | read
  | write (data : Word)
  deriving DecidableEq, Repr

/-- One host access (R77): its byte address, its width in bytes and its direction. A legal one is 4 bytes wide at a
multiple of 4 (R63); the others are accesses too, and are answered with ERROR. -/
structure Access where
  addr : Nat
  width : Nat
  dir : Direction
  deriving DecidableEq, Repr

/-- What the port last answered a context's host (R77). -/
inductive Response where
  /-- Nothing yet since reset. -/
  | none
  /-- OK: a write, or a command that has completed (R110). -/
  | ok
  /-- OK, with the 32 bits of read data. -/
  | data (v : Word)
  /-- ERROR, with no data (R65, R223). -/
  | error
  deriving DecidableEq, Repr

/-- What happens next: which agent of R9 takes a step, or the environment's reset. The machine's schedule is a list of
these in the state, so a claim about every state is a claim about every schedule.
DESIGN CHOICE (notes/assumptions/3.md, 4.md). -/
inductive Event where
  /-- A host access; if it is a CMD write of a command, the command runs to its end before any other agent moves. -/
  | access (a : Access)
  /-- A host access; if it is a CMD write of a command, the command is accepted and what remains of it is left to the
  builder's and the sequencer's own steps, so that other agents' steps can come in between (R116, R170). -/
  | issue (a : Access)
  /-- The LUT builder's step, for the request of context c (R131). -/
  | builder (c : Nat)
  /-- The step of context c's sequencer (R161). -/
  | sequencer (c : Nat)
  /-- Reset, with the value of ACCEL_EN sampled at its end (R21, R250). -/
  | reset (accelEn : Bool)
  deriving DecidableEq, Repr

/-- The state of one context (R20): its stores (R24 to R27), its control registers (R28 to R30), its completion record
(R31 to R37), its sequencer (R39, R40), and what its page's port is in the middle of (R68, R69, R77). CMD, LUT_ROW
and the RLE halves have no storage (R42 to R44), and the values inside a group step are not state (R41). -/
structure Context where
  /-- SCAN, the input scanline (R24). -/
  scan : Pixels
  /-- OUT, the CompactedSequence (R25). -/
  out : Pixels
  /-- RLE, the RleMaskBlock: 4 words of 64 bits (R26), each as its 8 bytes; `blockWord` is the 64-bit word. -/
  rle : Blocks
  /-- COUNT, 9 bits, 0..256 (R27). -/
  count : BitVec 9
  /-- SRC_LEN (R28). -/
  srcLen : Word
  /-- DST_CAP (R29). -/
  dstCap : Word
  /-- LUT_IDX, 8 bits (R30). -/
  lutIdx : BitVec 8
  /-- STATUS.DONE (R32). -/
  done : Bool
  /-- STATUS.ACCEL (R33). -/
  accel : Bool
  /-- STATUS.ERR, 4 bits (R36). -/
  err : BitVec 4
  /-- STATUS.PV.LEN_BAD (R37). -/
  lenBad : Bool
  /-- STATUS.PV.CAP_BAD (R37). -/
  capBad : Bool
  /-- PHASE (R39). -/
  phase : Phase
  /-- GRP, 6 bits, 0..32 (R40). -/
  grp : BitVec 6
  /-- The command that was issued and now waits for the LUT builder's step, if any (R111, R115, R131). Only an issued
  command ever waits. DESIGN CHOICE (notes/assumptions/4.md). -/
  pending : Option Instr
  /-- The accesses to this page that the port holds, oldest first (R69). -/
  held : List Event
  /-- The response to the last access of this page that completed (R77). -/
  resp : Response
  deriving DecidableEq, Repr

/-- The block's state: the part shared by all contexts (R20), the contexts 0 to NCTX - 1 in order (R4, R234), and the
schedule. ACCEL_EN and BASE are parameters (R4, R21); the state holds them so that every statement about a state
holds for every value of them. -/
structure State where
  /-- ACCEL_EN, as sampled at the end of the last reset (R21). -/
  accelEn : Bool
  /-- BASE, the byte address of context 0's page (R62). -/
  base : Nat
  /-- LUT_VALID (R22). -/
  lutValid : Bool
  /-- LUT (R23). -/
  lut : Table
  /-- The contexts; NCTX is the length of this list. -/
  ctxs : List Context
  /-- The context whose CMD was written last: the c of spec/40_host_commands.md.
  The model's own (notes/assumptions/8.md). -/
  cur : Nat
  /-- What happens next, in order. The model's own (notes/assumptions/3.md). -/
  inputs : List Event
  /-- How many resets there have been since the first: the argument of the free values of Config.
  The model's own (notes/assumptions/2.md). -/
  resets : Nat
  deriving DecidableEq, Repr

/-- Why the model stops without a next state. The block's own exceptions are not here: they are recorded in STATUS or
in a response, and the machine goes on (R227). -/
inductive Fault where
  /-- Raised by exec when the state selects a context that does not exist, so there is no CMD register that could have
  been written (R62, R234). No step of the machine raises it. Safe: the model stops where the hardware cannot be. -/
  | noSuchContext
  deriving DecidableEq, Repr

/-- Why the model gives no meaning. -/
inductive Refusal where
  /-- Would be raised by exec's arm of a command that has no meaning yet; no arm is left so. Safe. -/
  | notModelled (mnemonic : String)
  deriving DecidableEq, Repr

/-- The outcome of one command or one step. -/
abbrev Result := Host.Outcome State Fault Refusal

/-- The 8 bytes of a 64-bit word, bits 7:0 first. -/
def bytesOfBlock (w : Block) : BlockBytes := tabulate 8 fun j => w.extractLsb' (8 * j) 8

/-- Context c right after reset number r (R46). SCAN, OUT and RLE are unspecified: the free values of Config. -/
def Context.reset (r c : Nat) : Context where
  scan := tabulate 256 (Config.scanAtReset r c)
  out := tabulate 256 (Config.outAtReset r c)
  rle := tabulate 4 fun n => bytesOfBlock (Config.rleAtReset r c n)
  count := 0#9
  srcLen := 0#32
  dstCap := 0#32
  lutIdx := 0#8
  done := false
  accel := false
  err := 0#4
  lenBad := false
  capBad := false
  phase := .idle
  grp := 0#6
  pending := none
  held := []
  resp := .none

/-- The table's content right after reset number r: unspecified (R46, U5). -/
def lutAfterReset (r : Nat) : Table := tabulate 256 fun m => tabulate 8 (Config.lutAtReset r m)

/-- The state right after reset number r of a block with the parameters p, with the events `inputs` still to come
(R46, R250). -/
def State.resetWith (p : Params) (r : Nat) (inputs : List Event) : State where
  accelEn := p.accelEn
  base := p.base
  lutValid := false
  lut := lutAfterReset r
  ctxs := (List.range p.nctx).map (Context.reset r)
  cur := 0
  inputs := inputs
  resets := r

/-- The machine right after reset (R46), with the parameters `Config.platform` (R4). -/
def State.reset : State := State.resetWith Config.platform 0 []

end Sys2Proof.Machine
end

