-- ==== Sys2Proof/Machine/Flags.lean ====
section
/-! DEFINITION. The completion record and the STATUS word (spec/10_state.md R31 to R38), the two preconditions of ENCODE
(R113), and the one flag computation of the datapath, the duplicate mask (R144). -/

namespace Sys2Proof.Machine

/-- The block's exceptions (R220). -/
inductive Trap where
  /-- Code 1, raised by ENCODE's validation, with which conditions failed (R221). -/
  | preconditionViolation (capBad lenBad : Bool)
  /-- Code 2, raised by a CMD write of a word that is no command (R222). -/
  | illegalCommand
  /-- Code 3, raised by an access that breaks the register map (R223). -/
  | accessError
  deriving DecidableEq, Repr

/-- R220: the exception's code. -/
def Trap.code : Trap → BitVec 4
  | .preconditionViolation _ _ => 1#4
  | .illegalCommand => 2#4
  | .accessError => 3#4

/-- R31 and R119: STATUS, assembled from its fields; bits 31:10 read as 0. -/
def statusWord (accelEn lutValid : Bool) (k : Context) : Word :=
  0#22 ++ BitVec.ofBool k.capBad ++ BitVec.ofBool k.lenBad ++ k.err ++ BitVec.ofBool accelEn
    ++ BitVec.ofBool lutValid ++ BitVec.ofBool k.accel ++ BitVec.ofBool k.done

/-- RLE[n] as one 64-bit word, from its 8 bytes (R26, R164). -/
def blockWord (b : BlockBytes) : Block := b[7] ++ b[6] ++ b[5] ++ b[4] ++ b[3] ++ b[2] ++ b[1] ++ b[0]

/-- R113: the declared scanline length is wrong. -/
def Context.lenFails (k : Context) : Bool := k.srcLen != 256#32

/-- R113: the declared output capacity is below 256, compared unsigned. -/
def Context.capFails (k : Context) : Bool := k.dstCap.ult 256#32

/-- R144, LANE_EQ: bit i is 1 exactly when pix[i] and nbr[i] agree in all 32 bits. -/
def laneEq (pix nbr : Vector Pixel 8) : Mask :=
  lanes.foldl (fun (m : Mask) i => if pix[i.val] = nbr[i.val] then m ||| (1#8 <<< i.val) else m) 0#8

end Sys2Proof.Machine
end

