-- ==== Sys2Proof/Machine/Operands.lean ====
section
/-! DEFINITION. Where operands are: the register page of a context (spec/20_memory.md R61, R62) and the pixels that a
group step reads (spec/42_pixel_duplicate_detector.md R141 to R143). -/

namespace Sys2Proof.Machine

/-- What stands at an offset of a register page (R61). -/
inductive Reg where
  | cmd
  | status
  | srcLen
  | dstCap
  | count
  | lutIdx
  | lutRow
  /-- RLEn_LO. -/
  | rleLo (n : Fin 4)
  /-- RLEn_HI. -/
  | rleHi (n : Fin 4)
  | scan (i : Fin 256)
  | out (i : Fin 256)
  /-- A reserved offset: no register. -/
  | reserved
  deriving DecidableEq, Repr

/-- R61: the register at byte offset off of a page, for an offset that is a multiple of 4. -/
def regAt (off : Nat) : Reg :=
  if off = 0x000 then .cmd
  else if off = 0x004 then .status
  else if off = 0x008 then .srcLen
  else if off = 0x00C then .dstCap
  else if off = 0x010 then .count
  else if off = 0x014 then .lutIdx
  else if off = 0x018 then .lutRow
  else if off < 0x020 then .reserved
  else if off < 0x040 then
    if off % 8 = 0 then .rleLo (Fin.ofNat 4 ((off - 0x020) / 8)) else .rleHi (Fin.ofNat 4 ((off - 0x020) / 8))
  else if off < 0x400 then .reserved
  else if off < 0x800 then .scan (Fin.ofNat 256 ((off - 0x400) / 4))
  else if off < 0xC00 then .out (Fin.ofNat 256 ((off - 0x800) / 4))
  else .reserved

/-- The offset of a register in its page, written from the table of R61 on its own; a reserved offset has none. -/
def Reg.offset : Reg → Option Nat
  | .cmd => some 0x000
  | .status => some 0x004
  | .srcLen => some 0x008
  | .dstCap => some 0x00C
  | .count => some 0x010
  | .lutIdx => some 0x014
  | .lutRow => some 0x018
  | .rleLo n => some (0x020 + 8 * n.val)
  | .rleHi n => some (0x024 + 8 * n.val)
  | .scan i => some (0x400 + 4 * i.val)
  | .out i => some (0x800 + 4 * i.val)
  | .reserved => none

/-- R62: the context whose page holds the byte address a, and the offset of a in that page; none outside the block's
NCTX pages, where the block decodes nothing. -/
def State.locate (s : State) (a : Nat) : Option (Nat × Nat) :=
  if s.base ≤ a ∧ a < s.base + pageBytes * s.ctxs.length then
    some ((a - s.base) / pageBytes, (a - s.base) % pageBytes)
  else none

/-- The byte address of offset off of context c's page (R62). -/
def State.pageAddr (s : State) (c off : Nat) : Nat := s.base + pageBytes * c + off

/-- The write of w to CMD of context c, as an access (R96). -/
def State.cmdWrite (s : State) (c : Nat) (w : Word) : Access :=
  { addr := s.pageAddr c 0x000, width := 4, dir := .write w }

/-- R63: exactly 4 bytes wide, at a multiple of 4. -/
def Access.aligned (a : Access) : Bool := a.width == 4 && a.addr % 4 == 0

/-- R141, PIXLOAD: the 8 pixels of group g, pix[i] = SCAN[8g + i]. -/
def pixload (scan : Pixels) (g : Fin 32) : Vector Pixel 8 :=
  tabulate8 fun i => scan[8 * g.val + i.val]

/-- R142, NEIGHBOR: the left neighbours of group g's pixels. The neighbour of pixel 0 is the sentinel, an explicit
case (R143); every other is the pixel just before it, across group boundaries too (R148). -/
def neighbor (scan : Pixels) (g : Fin 32) : Vector Pixel 8 :=
  tabulate8 fun i => if 8 * g.val + i.val = 0 then sentinel else scan[8 * g.val + i.val - 1]

end Sys2Proof.Machine
end

