-- ==== Sys2Proof/Machine/Table.lean ====
section
/-! DEFINITION. The LUT builder's table (spec/41_lut_builder.md R130) and the LUT_ROW window (R137). -/

namespace Sys2Proof.Machine

/-- The positions of the unset bits of m, in ascending order (R130). -/
def unsetLanes (m : Mask) : List Lane :=
  (lanes.filter fun b => !m.getLsbD b.val).map fun b => BitVec.ofNat 3 b.val

/-- R130: the row of mask m, the unset bit positions padded to length 8 with 0. -/
def rowOf (m : Mask) : Row := tabulate8 fun k => (unsetLanes m).getD k.val 0#3

/-- R130, BUILDLUT: the permutation table. It has no input. -/
def buildLut : Table := tabulate 256 fun m => rowOf (BitVec.ofNat 8 m)

/-- R151, LUT_READ: one whole row of the table. -/
def lutRead (lut : Table) (m : Mask) : Row := lut[m.toNat]'m.isLt

/-- R137: a row packed for the window, entry k at bits 4k+2 to 4k, bit 4k+3 staying 0. -/
def packRow (r : Row) : Word :=
  lanes.foldl (fun (v : Word) k => v ||| (BitVec.setWidth 32 r[k.val]).shiftLeft (4 * k.val)) 0#32

/-- R137: what a read of LUT_ROW returns: 0 until the table is built. -/
def lutWindow (lutValid : Bool) (lut : Table) (idx : BitVec 8) : Word :=
  if lutValid then packRow (lutRead lut idx) else 0#32

end Sys2Proof.Machine
end

