-- ==== Sys2Proof/Machine/Encoder.lean ====
section
/-! DEFINITION. The datapath of one group step: the duplicate detector (spec/42_pixel_duplicate_detector.md), the lane
compactor (spec/43_permutation_table_lane_compactor.md) and the scanline encoder (spec/44_scanline_rle_encoder.md). -/

namespace Sys2Proof.Machine

/-- R140: the DuplicateMask of group g. -/
def dupMask (scan : Pixels) (g : Fin 32) : Mask := laneEq (pixload scan g) (neighbor scan g)

/-- The number of bits of v equal to 1 (R7, R153). -/
def popcount8 (v : Mask) : Nat := lanes.countP fun i => v.getLsbD i.val

/-- R153, POPCNT8: the number of kept lanes, 0..8, in 4 bits. -/
def popcnt8 (mask : Mask) : BitVec 4 := BitVec.ofNat 4 (popcount8 (mask ^^^ 0xFF#8))

/-- R152, PERMUTE8, for one slot: the lane that the row selects. -/
def permuteSlot (pix : Vector Pixel 8) (row : Row) (k : Fin 8) : Pixel := pix[row[k.val].toNat]'row[k.val].isLt

/-- The staging slots 0 to kept - 1. The slots from kept on are unspecified and never read, so the model does not have
them (R154, 93_implementation_defined.md U1; notes/assumptions/9.md). -/
def staged (pix : Vector Pixel 8) (row : Row) (kept : BitVec 4) : List Pixel :=
  (lanes.take kept.toNat).map (permuteSlot pix row)

/-- R162, APPEND: the staged values go to OUT from index n on; no other element is written. Every index is below 256 in
a state that a run reaches (R168). -/
def appendOut (out : Pixels) (n : Nat) : List Pixel → Pixels
  | [] => out
  | v :: vs => appendOut (out.setIfInBounds n v) (n + 1) vs

/-- R163, COUNT_ADD. The sum does not wrap in a state that a run reaches (R168). -/
def countAdd (count : BitVec 9) (kept : BitVec 4) : BitVec 9 := count + kept.setWidth 9

/-- R164, MASK_PACK: with n = 8g / 64 and j = g mod 8, the mask of group g replaces bits 8j+7 to 8j of RLE[n], which
are byte j of that word, and nothing else. -/
def maskPack (rle : Blocks) (g : Fin 32) (mask : Mask) : Blocks :=
  rle.set (8 * g.val / 64) (rle[8 * g.val / 64].set (g.val % 8) mask)

/-- R161: the group step of group g, in the order the rule gives, ending with the group counter's step (R165). -/
def Context.groupStepAt (k : Context) (lut : Table) (g : Fin 32) : Context :=
  let pix := pixload k.scan g
  let nbr := neighbor k.scan g
  let mask := laneEq pix nbr
  let row := lutRead lut mask
  let kept := popcnt8 mask
  { k with
    out := appendOut k.out k.count.toNat (staged pix row kept)
    count := countAdd k.count kept
    rle := maskPack k.rle g mask
    grp := k.grp + 1#6 }

/-- R161, GROUPSTEP: enabled while GRP < 32; the sequencer and ENCODE take it only while PHASE = RUN. It writes OUT,
COUNT, RLE and GRP and nothing else. -/
def Context.groupStep (lut : Table) (k : Context) : Context :=
  let k' := if h : k.grp.toNat < 32 then k.groupStepAt lut ⟨k.grp.toNat, h⟩ else k
  { k with out := k'.out, count := k'.count, rle := k'.rle, grp := k'.grp }

/-- n group steps, one after another. -/
def Context.groupSteps (lut : Table) : Nat → Context → Context
  | 0, k => k
  | n + 1, k => Context.groupSteps lut n (k.groupStep lut)

/-- R116: the start of an ENCODE's run. -/
def Context.startRun (k : Context) : Context := { k with count := 0#9, grp := 0#6, phase := .run }

/-- R169: the completion of a run, one action. -/
def Context.completeRun (k : Context) : Context := { k with phase := .idle, done := true, accel := true }

/-- R116: the whole run, with no other agent's step in between: 32 group steps, for groups 0 to 31, then completion
(R169). Written with the fields a run writes at the top; `Context.runAll_eq` of Sys2Proof/Laws/Run.lean says that it is
the completion of 32 group steps. Irreducible, so that no proof unfolds 32 group steps by accident. -/
@[irreducible] def Context.runAll (lut : Table) (k : Context) : Context :=
  let r := (Context.groupSteps lut 32 k.startRun).completeRun
  { k with
    out := r.out
    count := r.count
    rle := r.rle
    grp := r.grp
    phase := .idle
    done := true
    accel := true }

end Sys2Proof.Machine
end

