-- ==== Sys2Proof/Machine/Ops.lean ====
section
/-! DEFINITION. The operations that commands, host accesses and agents share: reading and writing a context and its
registers (spec/40_host_commands.md R118, R119), command acceptance (R110), taking an exception (spec/60_exceptions.md
R227), the guarded build (spec/41_lut_builder.md R131), the hold (spec/20_memory.md R69), the end of a command (R122)
and reset (spec/70_reset_and_hazards.md R250). -/

namespace Sys2Proof.Machine

/-- The state with context c replaced. -/
def State.putCtx (s : State) (c : Nat) (k : Context) : State := { s with ctxs := s.ctxs.set c k }

/-- The context with its port's last response replaced (R77). -/
def Context.respond (k : Context) (r : Response) : Context := { k with resp := r }

/-- R110: acceptance clears the completion record and changes nothing else. It is also all there is to a return from an
exception: the record of one stays until this (R229). -/
def Context.accept (k : Context) : Context :=
  { k with done := false, accel := false, err := 0#4, lenBad := false, capBad := false }

/-- R227 and R223: taking an exception. A command exception, raised after acceptance, writes ERR and, for code 1, PV;
an AccessError is recorded in the response alone. Nothing else is written: no state is saved, no mode changes and
control goes nowhere. -/
def Context.takeTrap (k : Context) (t : Trap) : Context :=
  match t with
  | .preconditionViolation cap len => { k with err := t.code, capBad := cap, lenBad := len }
  | .illegalCommand => { k with err := t.code }
  | .accessError => k.respond .error

/-- A context inside a command: its run is in progress, or its command waits for the builder (R39, R68, R69).
DESIGN CHOICE for the second (notes/assumptions/5.md). -/
def Context.busy (k : Context) : Bool := k.phase == .run || k.pending.isSome

/-- R69: an access to a busy context's page is held and has no effect yet. -/
def State.hold (s : State) (c : Nat) (k : Context) (e : Event) : State := s.putCtx c { k with held := k.held ++ [e] }

/-- R131, BuildStep: one atomic step; it has no effect when the table exists. -/
def State.buildStep (s : State) : State :=
  if s.lutValid then s else { s with lut := buildLut, lutValid := true }

/-- R122: what the end of a command does to the context's port: its CMD write completes with response OK, and nothing
waits or is held any more. -/
def Context.ended (k : Context) : Context := { k with pending := none, held := [], resp := .ok }

/-- R122 and R110: a command of context c ends with the context k: its CMD write completes with response OK, and the
held accesses proceed as if issued at that moment (R69; for their order, notes/assumptions/5.md). -/
def State.endCommand (s : State) (c : Nat) (k : Context) : State :=
  { s.putCtx c k.ended with inputs := k.held ++ s.inputs }

/-- R119: what a read of a register returns; none is an AccessError. -/
def State.readReg (s : State) (k : Context) : Reg → Option Word
  | .status => some (statusWord s.accelEn s.lutValid k)
  | .srcLen => some k.srcLen
  | .dstCap => some k.dstCap
  | .count => some (k.count.setWidth 32)
  | .lutIdx => some (k.lutIdx.setWidth 32)
  | .lutRow => some (lutWindow s.lutValid s.lut k.lutIdx)
  | .rleLo n => some ((blockWord k.rle[n.val]).extractLsb' 0 32)
  | .rleHi n => some ((blockWord k.rle[n.val]).extractLsb' 32 32)
  | .scan i => some k.scan[i.val]
  | .out i => some k.out[i.val]
  | .cmd => none
  | .reserved => none

/-- R118: a write to a register other than CMD; none is an AccessError. -/
def Context.writeReg (k : Context) (v : Word) : Reg → Option Context
  | .srcLen => some { k with srcLen := v }
  | .dstCap => some { k with dstCap := v }
  | .lutIdx => some { k with lutIdx := v.extractLsb' 0 8 }
  | .scan i => some { k with scan := k.scan.set i.val v }
  | .cmd => none
  | .status => none
  | .count => none
  | .lutRow => none
  | .rleLo _ => none
  | .rleHi _ => none
  | .out _ => none
  | .reserved => none

/-- R64: the byte at byte offset off of a context's page, as a platform with a byte-addressed path shows it. The block's
own port takes whole registers only (R63). -/
def State.pageByte (s : State) (k : Context) (off : Nat) : Option (BitVec 8) :=
  (s.readReg k (regAt (off - off % 4))).map fun w => byteOfWord w (off % 4)

/-- R250: reset. Every piece of state takes its reset value, for all contexts at once, and ACCEL_EN is sampled; BASE and
NCTX stay. A command in progress is abandoned: its CMD write and the held accesses are dropped without a response
(R252). -/
def State.applyReset (s : State) (accelEn : Bool) : State :=
  State.resetWith { accelEn := accelEn, nctx := s.ctxs.length, base := s.base } (s.resets + 1) s.inputs

/-- A command on the context whose CMD was written: held while that context is busy, as R110 says, else what f gives. -/
def State.onIdle (s : State) (i : Instr) (f : Context → State) : Result :=
  match s.ctxs[s.cur]? with
  | none => .fault .noSuchContext
  | some k => if k.busy then .next (s.hold s.cur k (.access (s.cmdWrite s.cur (encode i)))) else .next (f k)

end Sys2Proof.Machine
end

