-- ==== Sys2Proof/Machine/Commands.lean ====
section
/-! DEFINITION. The meanings of the two commands (spec/40_host_commands.md R111, R112), run to their end; and the same
commands taken in parts (R9): accepted and issued by the host, then the builder's step, then the sequencer's. -/

namespace Sys2Proof.Machine

/-- R111: LUTBUILD on context c, whose content is k. -/
def State.lutbuildOn (s : State) (c : Nat) (k : Context) : State :=
  (if s.accelEn then s.buildStep else s).endCommand c { k.accept with done := true }

/-- R113: ENCODE's validation fails. -/
def Context.rejects (k : Context) : Bool := k.lenFails || k.capFails

/-- R113: what a rejected ENCODE leaves. -/
def Context.rejected (k : Context) : Context := k.accept.takeTrap (.preconditionViolation k.capFails k.lenFails)

/-- R112: ENCODE on context c, whose content is k: validate (R113), test the capability (R114), build the table if it is
not built (R115), run (R116). -/
def State.encodeOn (s : State) (c : Nat) (k : Context) : State :=
  if k.rejects then s.endCommand c k.rejected
  else if !s.accelEn then s.endCommand c { k.accept with done := true }
  else
    let s1 := s.buildStep
    s1.endCommand c (k.accept.runAll s1.lut)

/-- R111, LUTBUILD. -/
def execLutbuild (s : State) : Result := s.onIdle .lutbuild fun k => s.lutbuildOn s.cur k

/-- R112, ENCODE. -/
def execEncode (s : State) : Result := s.onIdle .encode fun k => s.encodeOn s.cur k

/-- The host's part of an issued command: acceptance (R110) and, for ENCODE, parts 1 and 2 (R113, R114). A command that
needs the table then waits for the builder's step (R131, R132); any other has ended. -/
def State.issueOn (s : State) (c : Nat) (k : Context) (i : Instr) : State :=
  match i with
  | .lutbuild =>
    if s.accelEn then s.putCtx c { k.accept with pending := some .lutbuild }
    else s.endCommand c { k.accept with done := true }
  | .encode =>
    if k.rejects then s.endCommand c k.rejected
    else if s.accelEn then s.putCtx c { k.accept with pending := some .encode }
    else s.endCommand c { k.accept with done := true }

/-- The LUT builder's step for the request of context c (R131), and with it what the waiting command does next: LUTBUILD
ends (R111), ENCODE's run starts (R115, R116). No effect when context c has no request. -/
def State.builderStep (s : State) (c : Nat) : State :=
  match s.ctxs[c]? with
  | none => s
  | some k =>
    match k.pending with
    | none => s
    | some .lutbuild => s.buildStep.endCommand c { k with done := true }
    | some .encode => s.buildStep.putCtx c { k with pending := none }.startRun

/-- The step of context c's sequencer (R161): one group step, and completion with the 32nd (R165, R169). No effect when
context c is not running. -/
def State.sequencerStep (s : State) (c : Nat) : State :=
  match s.ctxs[c]? with
  | none => s
  | some k =>
    match k.phase with
    | .idle => s
    | .run =>
      let k1 := k.groupStep s.lut
      if k1.grp.toNat < 32 then s.putCtx c k1 else s.endCommand c k1.completeRun

end Sys2Proof.Machine
end

