-- ==== Sys2Proof/Machine/Dispatch.lean ====
section
/-! DEFINITION. The meaning of each command. -/

namespace Sys2Proof.Machine

def exec (i : Instr) (s : State) : Host.Outcome State Fault Refusal :=
  match i with
  | .lutbuild => Sys2Proof.Machine.execLutbuild s
  | .encode => Sys2Proof.Machine.execEncode s

end Sys2Proof.Machine
end

