-- ==== Sys2Proof/Machine/Port.lean ====
section
/-! DEFINITION. One host access at the block's port (spec/20_memory.md, spec/40_host_commands.md R118, R119), one event
of the schedule, and what happens when the schedule is empty. -/

namespace Sys2Proof.Machine

/-- A write of w to CMD of context c (R97, R110), where `whole` says whether a command runs to its end now (Event.access)
or is only issued (Event.issue). A word that is no command clears the record and raises IllegalCommand (R222). -/
def State.commandWrite (s : State) (whole : Bool) (c : Nat) (k : Context) (w : Word) : Result :=
  match decode w with
  | .error _ => .next ({ s with cur := c }.endCommand c (k.accept.takeTrap .illegalCommand))
  | .ok i => if whole then exec i { s with cur := c } else .next ({ s with cur := c }.issueOn c k i)

/-- An access that no hold delays, to offset off of context c's page, checked in the order of R226. -/
def State.performAccess (s : State) (whole : Bool) (a : Access) (c off : Nat) (k : Context) : Result :=
  if !a.aligned then .next (s.putCtx c (k.takeTrap .accessError))
  else
    match a.dir with
    | .read =>
      match s.readReg k (regAt off) with
      | some v => .next (s.putCtx c (k.respond (.data v)))
      | none => .next (s.putCtx c (k.takeTrap .accessError))
    | .write v =>
      if regAt off = .cmd then s.commandWrite whole c k v
      else
        match k.writeReg v (regAt off) with
        | some k' => .next (s.putCtx c (k'.respond .ok))
        | none => .next (s.putCtx c (k.takeTrap .accessError))

/-- A host access: outside the block's pages it is not the block's (R62); to a busy context's page it is held (R69);
else it is performed. -/
def State.hostAccess (s : State) (whole : Bool) (a : Access) : Result :=
  match s.locate a.addr with
  | none => .next s
  | some (c, off) =>
    match s.ctxs[c]? with
    | none => .next s
    | some k =>
      if k.busy then .next (s.hold c k (if whole then .access a else .issue a))
      else s.performAccess whole a c off k

/-- One event of the schedule (R9). -/
def State.takeEvent (s : State) : Event → Result
  | .access a => s.hostAccess true a
  | .issue a => s.hostAccess false a
  | .builder c => .next (s.builderStep c)
  | .sequencer c => .next (s.sequencerStep c)
  | .reset accelEn => .next (s.applyReset accelEn)

/-- With nothing scheduled, the first context inside a command goes on by one step: every step of the builder and of a
sequencer is always enabled (R131, R170). With no context inside a command nothing happens (R236).
DESIGN CHOICE (notes/assumptions/3.md). -/
def State.idleStep (s : State) : State :=
  let c := s.ctxs.findIdx Context.busy
  match s.ctxs[c]? with
  | none => s
  | some k => if k.pending.isSome then s.builderStep c else s.sequencerStep c

/-- One step: the next event of the schedule, or the next step of a command in progress. -/
def State.stepOnce (s : State) : Result :=
  match s.inputs with
  | [] => .next s.idleStep
  | e :: rest => { s with inputs := rest }.takeEvent e

/-- Context c of the state made ready to accept a command: no command in progress. -/
def State.ready (s : State) (c : Nat) : State :=
  match s.ctxs[c]? with
  | none => s
  | some k => s.putCtx c { k with phase := .idle, pending := none }

/-- The state in which the next event is the host's write of w's low nbits bits to CMD of the selected context. -/
def State.placeCommand (s : State) (nbits w : Nat) : State :=
  let s1 := s.ready s.cur
  { s1 with inputs := .access (s1.cmdWrite s1.cur (BitVec.ofNat 32 (w % 2 ^ nbits))) :: s1.inputs }

end Sys2Proof.Machine
end

