-- ==== Sys2Proof/Machine/Step.lean ====
section
/-! DEFINITION. The machine's step, and where the next command comes from. -/

namespace Sys2Proof.Machine

/-- One step of the machine: one event of its schedule (spec/00_scope.md R8, R9). -/
def step (s : State) : Host.Outcome State Fault Refusal := s.stepOnce

/-- The state in which the command word w is written to CMD of the selected context by the very next step. The block
fetches no instruction (R73): a command is the data of a CMD write, so the place is the head of the schedule
(notes/assumptions/14.md). -/
def State.withFetchWord (s : State) (nbits w : Nat) : State := s.placeCommand nbits w

end Sys2Proof.Machine
end

