-- ==== Sys2Proof/Machine/Reference.lean ====
section
/-! DEFINITION. The reference functions of spec/45_reference_contracts.md: the per-pixel rule (R180), the scalar encoder
(R181) and the decoder contract (R183). They are contracts of external software, not hardware (R5, R189): the block
is held against them and never calls them. -/

namespace Sys2Proof.Machine

/-- The mask words of a scanline as four 64-bit words (R181). -/
abbrev MaskWords := Vector Block 4

/-- R180: the duplicate flag of pixel p: pixel 0 against the sentinel, every other against its left neighbour. -/
def dupFlag (S : Pixels) (p : Nat) : Bool :=
  if p = 0 then S[0] == sentinel else S[p]? == S[p - 1]?

/-- M[p >> 6][p & 63], the flag of pixel p in the mask words (R181, R183). -/
def maskBit (M : MaskWords) (p : Nat) : Bool :=
  match M[p / 64]? with
  | some w => w.getLsbD (p % 64)
  | none => false

/-- M[p >> 6][p & 63] <- 1 (R181). -/
def setMaskBit (M : MaskWords) (p : Nat) : MaskWords :=
  match M[p / 64]? with
  | some w => M.setIfInBounds (p / 64) (w ||| (1#64 <<< (p % 64)))
  | none => M

/-- What an encoding of a scanline is: the CompactedSequence, its length, and the RleMaskBlock (R181). -/
structure Encoding where
  values : List Pixel
  count : Nat
  mask : MaskWords
  deriving DecidableEq, Repr

/-- R181: the loop's body for pixel p. -/
def scalarStep (S : Pixels) (e : Encoding) (p : Nat) : Encoding :=
  if dupFlag S p then { e with mask := setMaskBit e.mask p }
  else
    match S[p]? with
    | some v => { e with values := e.values ++ [v], count := e.count + 1 }
    | none => e

/-- R181: the state of the scalar scan after its first n pixels. -/
def scalarPrefix (S : Pixels) (n : Nat) : Encoding :=
  (List.range n).foldl (scalarStep S) { values := [], count := 0, mask := Vector.replicate 4 0#64 }

/-- R181, ScalarEncode: the whole scan. -/
def scalarEncode (S : Pixels) : Encoding := scalarPrefix S 256

/-- R183, the decoder's loop: n pixels from pixel p on, with the already reconstructed left neighbour prev and the
unread entries C. A sequence too short for its mask decodes to nothing. -/
def decodeFrom (M : MaskWords) : Nat → Nat → Pixel → List Pixel → Option (List Pixel)
  | 0, _, _, _ => some []
  | n + 1, p, prev, C =>
    if maskBit M p then (decodeFrom M n (p + 1) prev C).map (prev :: ·)
    else
      match C with
      | [] => none
      | v :: vs => (decodeFrom M n (p + 1) v vs).map (v :: ·)

/-- R183, Decode: the 256 pixels of a scanline from its CompactedSequence and its mask words. -/
def decodeScanline (C : List Pixel) (M : MaskWords) : Option (List Pixel) := decodeFrom M 256 0 sentinel C

/-- The RleMaskBlock of a context as four 64-bit words (R26). -/
def Context.maskWords (k : Context) : MaskWords := k.rle.map blockWord

/-- OUT[0..COUNT-1], the CompactedSequence after a completed run (R25, R117). -/
def Context.compacted (k : Context) : List Pixel := k.out.toList.take k.count.toNat

/-- R200: the LUT_ROW column of the listing of the permutation table, rows 0x00 to 0xFF in order. The model's table is
`buildLut`; the listing is what it is held against. -/
def lutListing : List Word :=
  [0x76543210, 0x07654321, 0x07654320, 0x00765432, 0x07654310, 0x00765431, 0x00765430, 0x00076543,
   0x07654210, 0x00765421, 0x00765420, 0x00076542, 0x00765410, 0x00076541, 0x00076540, 0x00007654,
   0x07653210, 0x00765321, 0x00765320, 0x00076532, 0x00765310, 0x00076531, 0x00076530, 0x00007653,
   0x00765210, 0x00076521, 0x00076520, 0x00007652, 0x00076510, 0x00007651, 0x00007650, 0x00000765] ++
  [0x07643210, 0x00764321, 0x00764320, 0x00076432, 0x00764310, 0x00076431, 0x00076430, 0x00007643,
   0x00764210, 0x00076421, 0x00076420, 0x00007642, 0x00076410, 0x00007641, 0x00007640, 0x00000764,
   0x00763210, 0x00076321, 0x00076320, 0x00007632, 0x00076310, 0x00007631, 0x00007630, 0x00000763,
   0x00076210, 0x00007621, 0x00007620, 0x00000762, 0x00007610, 0x00000761, 0x00000760, 0x00000076] ++
  [0x07543210, 0x00754321, 0x00754320, 0x00075432, 0x00754310, 0x00075431, 0x00075430, 0x00007543,
   0x00754210, 0x00075421, 0x00075420, 0x00007542, 0x00075410, 0x00007541, 0x00007540, 0x00000754,
   0x00753210, 0x00075321, 0x00075320, 0x00007532, 0x00075310, 0x00007531, 0x00007530, 0x00000753,
   0x00075210, 0x00007521, 0x00007520, 0x00000752, 0x00007510, 0x00000751, 0x00000750, 0x00000075] ++
  [0x00743210, 0x00074321, 0x00074320, 0x00007432, 0x00074310, 0x00007431, 0x00007430, 0x00000743,
   0x00074210, 0x00007421, 0x00007420, 0x00000742, 0x00007410, 0x00000741, 0x00000740, 0x00000074,
   0x00073210, 0x00007321, 0x00007320, 0x00000732, 0x00007310, 0x00000731, 0x00000730, 0x00000073,
   0x00007210, 0x00000721, 0x00000720, 0x00000072, 0x00000710, 0x00000071, 0x00000070, 0x00000007] ++
  [0x06543210, 0x00654321, 0x00654320, 0x00065432, 0x00654310, 0x00065431, 0x00065430, 0x00006543,
   0x00654210, 0x00065421, 0x00065420, 0x00006542, 0x00065410, 0x00006541, 0x00006540, 0x00000654,
   0x00653210, 0x00065321, 0x00065320, 0x00006532, 0x00065310, 0x00006531, 0x00006530, 0x00000653,
   0x00065210, 0x00006521, 0x00006520, 0x00000652, 0x00006510, 0x00000651, 0x00000650, 0x00000065] ++
  [0x00643210, 0x00064321, 0x00064320, 0x00006432, 0x00064310, 0x00006431, 0x00006430, 0x00000643,
   0x00064210, 0x00006421, 0x00006420, 0x00000642, 0x00006410, 0x00000641, 0x00000640, 0x00000064,
   0x00063210, 0x00006321, 0x00006320, 0x00000632, 0x00006310, 0x00000631, 0x00000630, 0x00000063,
   0x00006210, 0x00000621, 0x00000620, 0x00000062, 0x00000610, 0x00000061, 0x00000060, 0x00000006] ++
  [0x00543210, 0x00054321, 0x00054320, 0x00005432, 0x00054310, 0x00005431, 0x00005430, 0x00000543,
   0x00054210, 0x00005421, 0x00005420, 0x00000542, 0x00005410, 0x00000541, 0x00000540, 0x00000054,
   0x00053210, 0x00005321, 0x00005320, 0x00000532, 0x00005310, 0x00000531, 0x00000530, 0x00000053,
   0x00005210, 0x00000521, 0x00000520, 0x00000052, 0x00000510, 0x00000051, 0x00000050, 0x00000005] ++
  [0x00043210, 0x00004321, 0x00004320, 0x00000432, 0x00004310, 0x00000431, 0x00000430, 0x00000043,
   0x00004210, 0x00000421, 0x00000420, 0x00000042, 0x00000410, 0x00000041, 0x00000040, 0x00000004,
   0x00003210, 0x00000321, 0x00000320, 0x00000032, 0x00000310, 0x00000031, 0x00000030, 0x00000003,
   0x00000210, 0x00000021, 0x00000020, 0x00000002, 0x00000010, 0x00000001, 0x00000000, 0x00000000]

end Sys2Proof.Machine
end

