-- ==== Sys2Proof/WellFormed.lean ====
section
/-! DEFINITION. Which terms are well formed: commands (all of them: no operand is assembled from command-word bits,
R94) and the implementation's parameters (R4). -/

namespace Sys2Proof

/-- Every command is well formed: neither has an operand that could be out of range (R94). -/
def Instr.wf : Instr → Bool
  | .lutbuild => true
  | .encode => true

/-- NCTX is at least 1 (R4). -/
def Params.nctxOk (p : Params) : Bool := decide (1 ≤ p.nctx)

/-- BASE is a multiple of 0x1000 (R4). -/
def Params.baseOk (p : Params) : Bool := p.base % pageBytes == 0

/-- The constraints R4 puts on the three parameters. ACCEL_EN may be either value. -/
def Params.wf (p : Params) : Bool := p.nctxOk && p.baseOk

end Sys2Proof
end

