-- ==== Sys2Proof/Safety.lean ====
section
/-! DEFINITION. What a good state is (spec/10_state.md R47 and what the model adds to it), what a run in progress has
produced so far, and the words in which the obligations speak of events and contexts. -/

namespace Sys2Proof.Machine

/-- The invariant of one context (R47), under the shared ACCEL_EN and LUT_VALID. -/
structure Context.Ok (accelEn lutValid : Bool) (k : Context) : Prop where
  /-- R47(a). -/
  count_le : k.count.toNat ≤ 256
  /-- R40. -/
  grp_le : k.grp.toNat ≤ 32
  /-- R47(b); a run has completed when GRP reaches 32 (R39, R169). -/
  run_bound : k.phase = .run → k.count.toNat ≤ 8 * k.grp.toNat ∧ k.grp.toNat < 32
  /-- R36: 3 to 15 are never produced. -/
  err_code : k.err = 0#4 ∨ k.err = 1#4 ∨ k.err = 2#4
  /-- R47(e). -/
  err_done : k.err ≠ 0#4 → k.done = false ∧ k.accel = false
  /-- R47(e). -/
  accel_done : k.accel = true → k.done = true
  /-- R47(e). -/
  pv_err : k.lenBad = true ∨ k.capBad = true → k.err = 1#4
  /-- R47(f). -/
  run_table : k.phase = .run → lutValid = true ∧ accelEn = true
  /-- R132: the builder is asked only when ACCEL_EN = 1; the run has not started then (R116). -/
  pending_idle : k.pending.isSome = true → accelEn = true ∧ k.phase = .idle
  /-- R110: while a command is in progress the record is the cleared one. -/
  busy_record : k.busy = true → k.done = false ∧ k.accel = false ∧ k.err = 0#4
  /-- R113: an ENCODE that goes on has passed validation, and nothing writes SRC_LEN or DST_CAP until it ends (R69). -/
  run_valid : k.phase = .run ∨ k.pending = some .encode → k.rejects = false
  /-- R69: only a busy context has held accesses. -/
  idle_held : k.busy = false → k.held = []

/-- The invariant of the machine: R47, with what R4 says of the parameters. -/
structure State.Inv (s : State) : Prop where
  /-- R47(c), R186. -/
  table : s.lutValid = true → s.lut = buildLut
  /-- R47(d). -/
  table_enabled : s.lutValid = true → s.accelEn = true
  /-- R4: NCTX is at least 1, and the selected context exists. -/
  cur_lt : s.cur < s.ctxs.length
  /-- R4: BASE is a multiple of 0x1000. -/
  base_page : s.base % pageBytes = 0
  /-- R47 for every context. -/
  ctx_ok : ∀ k ∈ s.ctxs, Context.Ok s.accelEn s.lutValid k

/-- What a run has produced after its first GRP group steps: OUT[0..COUNT-1] and the flags of pixels 0 to 8·GRP - 1 are
those of the scalar scan of SCAN so far (R161 to R167). A context that is not running has nothing to show. -/
def Context.Partial (k : Context) : Prop :=
  k.phase = .run →
    k.compacted = (scalarPrefix k.scan (8 * k.grp.toNat)).values ∧
    k.count.toNat = (scalarPrefix k.scan (8 * k.grp.toNat)).count ∧
    ∀ p, p < 8 * k.grp.toNat → maskBit k.maskWords p = dupFlag k.scan p

/-- Every run in progress has produced what it should have. -/
def State.PartialResults (s : State) : Prop := ∀ k ∈ s.ctxs, k.Partial

/-- The context an event is addressed to; none for reset and for an access outside the block's pages. -/
def State.target (s : State) : Event → Option Nat
  | .access a => (s.locate a.addr).map (·.1)
  | .issue a => (s.locate a.addr).map (·.1)
  | .builder c => some c
  | .sequencer c => some c
  | .reset _ => none

/-- The next event is a reset. -/
def State.resetNext (s : State) : Bool :=
  match s.inputs with
  | .reset _ :: _ => true
  | _ => false

/-- An access to an existing context's page that no hold delays: the next event is the access a (taken whole or only
issued), it goes to offset off of context c, and c, whose content is k, is in no command. -/
structure State.Presents (s : State) (a : Access) (c off : Nat) (k : Context) (rest : List Event) : Prop where
  head : s.inputs = .access a :: rest ∨ s.inputs = .issue a :: rest
  place : s.locate a.addr = some (c, off)
  ctx : s.ctxs[c]? = some k
  idle : k.busy = false

/-- The selected context is k, and it is in no command. -/
structure State.Selected (s : State) (k : Context) : Prop where
  ctx : s.ctxs[s.cur]? = some k
  idle : k.busy = false

/-- The shared part of the state other than the table is unchanged, and so is every context but c. -/
structure SameOutside (c : Nat) (s t : State) : Prop where
  accelEn : t.accelEn = s.accelEn
  base : t.base = s.base
  resets : t.resets = s.resets
  nctx : t.ctxs.length = s.ctxs.length
  others : ∀ d, d ≠ c → t.ctxs[d]? = s.ctxs[d]?

/-- The shared part, the table and every context but c are unchanged. -/
structure SameButContext (c : Nat) (s t : State) : Prop extends SameOutside c s t where
  lutValid : t.lutValid = s.lutValid
  lut : t.lut = s.lut

/-- The part of the state that the contexts share is the same: the parameters, the table, the number of contexts, and the
number of resets, on which the free values depend. -/
structure SameShared (s t : State) : Prop where
  accelEn : t.accelEn = s.accelEn
  base : t.base = s.base
  lutValid : t.lutValid = s.lutValid
  lut : t.lut = s.lut
  resets : t.resets = s.resets
  nctx : t.ctxs.length = s.ctxs.length

/-- The stores and host-written registers of a context that no completion record belongs to are unchanged (R227). -/
structure SameStores (k k' : Context) : Prop where
  scan : k'.scan = k.scan
  out : k'.out = k.out
  rle : k'.rle = k.rle
  count : k'.count = k.count
  srcLen : k'.srcLen = k.srcLen
  dstCap : k'.dstCap = k.dstCap
  lutIdx : k'.lutIdx = k.lutIdx
  phase : k'.phase = k.phase
  grp : k'.grp = k.grp

/-- The completion record of a context (R31 to R37) has these values. -/
structure Context.Record (k : Context) (done accel : Bool) (err : BitVec 4) (lenBad capBad : Bool) : Prop where
  done : k.done = done
  accel : k.accel = accel
  err : k.err = err
  lenBad : k.lenBad = lenBad
  capBad : k.capBad = capBad

/-- The steps a context's command still needs (R261): for an issued LUTBUILD the builder's, for an issued ENCODE the
builder's and 32 group steps, for a run the group steps up to the 32nd; 0 when no command is in progress. -/
def Context.stepsLeft (k : Context) : Nat :=
  match k.pending, k.phase with
  | some .lutbuild, _ => 1
  | some .encode, _ => 33
  | none, .run => 32 - k.grp.toNat
  | none, .idle => 0

/-- The next step is one of context c's own command: the builder's for its request, a step of its sequencer, or, with
nothing scheduled, that of the first context inside a command (notes/assumptions/3.md). -/
def State.Drives (s : State) (c : Nat) (k : Context) : Prop :=
  (s.inputs.head? = some (.builder c) ∧ k.pending.isSome = true) ∨
  (s.inputs.head? = some (.sequencer c) ∧ k.phase = .run) ∨
  (s.inputs = [] ∧ s.ctxs.findIdx Context.busy = c)

/-- The access a is a CMD write of the command i to context c, whose content k is in no command, and i passes what stands
before the build step: ACCEL_EN = 1 and, for ENCODE, good declarations (R111, R113, R114). -/
structure State.Commands (s : State) (a : Access) (c : Nat) (k : Context) (i : Instr) : Prop where
  place : s.locate a.addr = some (c, 0x000)
  width : a.width = 4
  aligned : a.addr % 4 = 0
  word : a.dir = .write (encode i)
  ctx : s.ctxs[c]? = some k
  idle : k.busy = false
  enabled : s.accelEn = true
  valid : i = .encode → k.rejects = false

/-- The conditions of a full run: the declarations are good (R113) and the block is enabled (R114). -/
structure State.Runs (s : State) (k : Context) : Prop where
  sel : s.Selected k
  srcLen : k.srcLen = 256#32
  dstCap : 256 ≤ k.dstCap.toNat
  enabled : s.accelEn = true
  table : s.lutValid = true → s.lut = buildLut

end Sys2Proof.Machine
end

