-- ==== Sys2Proof/Certificates/Slice0/Obligations.lean ====
section
/-! DEFINITION. The statements for the provers. "Runs", "Selected", "SameStores" and the other words used here are
defined in Sys2Proof/Safety.lean; the reference functions in Sys2Proof/Machine/Reference.lean. -/

open Sys2Proof Sys2Proof.Machine

/-! ### The command words -/

/-- R91, R92, R93 on single words: the two command words, and words around them that are none. -/
def Obligations.CommandWordsDecodeAsTabled : Prop :=
  decode 0x00000001#32 = .ok .lutbuild ∧ decode 0x00000002#32 = .ok .encode ∧
  decode 0x00000000#32 = .error .reservedOpcode ∧ decode 0x00000003#32 = .error .reservedOpcode ∧
  decode 0x00000102#32 = .error .reservedBits ∧ decode 0x80000001#32 = .error .reservedBits

/-- R92, R93, R97: decoding is total, and exactly two of the 2^32 words are commands. -/
def Obligations.ExactlyTwoWordsAreCommands : Prop :=
  ∀ w : Word,
    (w.extractLsb' 8 24 ≠ 0#24 → decode w = .error .reservedBits) ∧
    (w.extractLsb' 8 24 = 0#24 → w.extractLsb' 0 8 ≠ 0x01#8 → w.extractLsb' 0 8 ≠ 0x02#8 →
      decode w = .error .reservedOpcode) ∧
    (∀ i, decode w = .ok i ↔ w = encode i)

/-- Decode and encode agree: every command, laid out in its 4 bytes (R64), decodes to itself, and so does its word as
the opcode table numbers it. -/
def Obligations.EncodedCommandsDecodeToThemselves : Prop :=
  ∀ i : Instr, i.wf = true →
    decodeBytes (encodeBytes i) = .ok i ∧ decodeTableWord 32 (encode i).toNat = some i

/-! ### The step -/

/-- A step whose next event is a CMD write of a command, taken whole, is exec of that command on the written context
(R68, R97, R110). The model's own form of fetching: notes/assumptions/4.md and 14.md. -/
def Obligations.StepRunsDecodedCommand : Prop :=
  ∀ (s : State) (rest : List Event) (a : Access) (c : Nat) (k : Context) (w : Word) (i : Instr),
    s.inputs = .access a :: rest → a.width = 4 → a.addr % 4 = 0 → a.dir = .write w →
    s.locate a.addr = some (c, 0x000) → s.ctxs[c]? = some k → k.busy = false → decode w = .ok i →
    step s = exec i { s with inputs := rest, cur := c }

/-- The word that withFetchWord places is what the very next step runs, on the selected context made ready: the
model's form of starting a command (notes/assumptions/14.md). -/
def Obligations.PlacedCommandRunsNext : Prop :=
  ∀ (s : State) (k : Context) (i : Instr),
    s.ctxs[s.cur]? = some k → s.base % 4 = 0 →
    step (s.withFetchWord 32 (encode i).toNat) = exec i (s.ready s.cur)

/-- Every step answers a next state: no fault and no refusal of exec is ever raised by a step, and a command that ends by
an exception leaves the machine going (R227). What ends a command in progress: CommandsInProgressAdvance. -/
def Obligations.EveryStepGoesOn : Prop := ∀ s : State, ∃ t, step s = .next t

/-- Where exec stops, goes on and holds. Its one stop: a command needs a context whose CMD was written, the model's own
(notes/assumptions/8.md). Otherwise it answers a next state, so it never refuses. On a busy context that next state is the
hold of R110: the CMD write joins the held accesses, and nothing else changes. That it waits there as an access taken
whole is the model's own (notes/assumptions/4.md, 5.md). -/
def Obligations.CommandNeedsAContext : Prop :=
  ∀ (i : Instr) (s : State),
    (exec i s = .fault .noSuchContext ↔ s.ctxs.length ≤ s.cur) ∧
    (s.cur < s.ctxs.length → ∃ t, exec i s = .next t) ∧
    ∀ k, s.ctxs[s.cur]? = some k → k.busy = true →
      exec i s = .next { s with ctxs := s.ctxs.set s.cur { k with
        held := k.held ++ [.access { addr := s.base + 0x1000 * s.cur, width := 4, dir := .write (encode i) }] } }

/-! ### LUTBUILD -/

/-- R111: LUTBUILD completes from every state whose selected context is in no command. When enabled, the table exists
afterwards, built now only if it was not there; when not enabled, nothing is built. The record says DONE alone. -/
def Obligations.LutbuildCompletes : Prop :=
  ∀ (s : State) (k : Context), s.Selected k →
    ∃ t k', exec .lutbuild s = .next t ∧ t.ctxs[s.cur]? = some k' ∧
      k'.Record true false 0#4 false false ∧ k'.resp = .ok ∧
      t.lutValid = (s.lutValid || s.accelEn) ∧
      t.lut = (if s.accelEn = true ∧ s.lutValid = false then buildLut else s.lut)

/-- R111(d): what LUTBUILD leaves unchanged: every store, every host-written register, the sequencer, the other
contexts, and everything shared but the table. That accesses the context held come next, in their order, is the model's
own (notes/assumptions/5.md). -/
def Obligations.LutbuildFrame : Prop :=
  ∀ (s t : State) (k : Context), s.Selected k → exec .lutbuild s = .next t →
    SameOutside s.cur s t ∧ t.cur = s.cur ∧ t.inputs = k.held ++ s.inputs ∧
    ∃ k', t.ctxs[s.cur]? = some k' ∧ SameStores k k' ∧ k'.pending = none ∧ k'.held = []

/-! ### ENCODE -/

/-- R113, R221, R227: a rejected ENCODE completes with ERR = 1 and both conditions recorded, whatever ACCEL_EN is; it
writes no store, builds no table and touches no other context. -/
def Obligations.EncodeRejectsBadDeclarations : Prop :=
  ∀ (s : State) (k : Context), s.Selected k → (k.srcLen ≠ 256#32 ∨ k.dstCap.toNat < 256) →
    ∃ t k', exec .encode s = .next t ∧ t.ctxs[s.cur]? = some k' ∧
      k'.Record false false 1#4 (decide (k.srcLen ≠ 256#32)) (decide (k.dstCap.toNat < 256)) ∧
      k'.resp = .ok ∧ SameStores k k' ∧ SameButContext s.cur s t

/-- R114, R224: with ACCEL_EN = 0 a valid ENCODE completes with DONE = 1, ACCEL = 0 and no error, and writes nothing
else. -/
def Obligations.EncodeWithoutCapability : Prop :=
  ∀ (s : State) (k : Context), s.Selected k → k.srcLen = 256#32 → 256 ≤ k.dstCap.toNat → s.accelEn = false →
    ∃ t k', exec .encode s = .next t ∧ t.ctxs[s.cur]? = some k' ∧
      k'.Record true false 0#4 false false ∧ k'.resp = .ok ∧ SameStores k k' ∧ SameButContext s.cur s t

/-- R182: the binding correctness contract. A full run completes, and COUNT, OUT[0..COUNT-1] and RLE are those of the
scalar scan of SCAN. -/
def Obligations.EncodeMatchesScalarEncode : Prop :=
  ∀ (s : State) (k : Context), s.Runs k →
    ∃ t k', exec .encode s = .next t ∧ t.ctxs[s.cur]? = some k' ∧
      k'.Record true true 0#4 false false ∧
      k'.count.toNat = (scalarEncode k.scan).count ∧
      k'.compacted = (scalarEncode k.scan).values ∧
      k'.maskWords = (scalarEncode k.scan).mask

/-- R112, R115, R169: how a full run leaves the table and the sequencer: the table is built and valid, PHASE is IDLE,
GRP is 32, and the CMD write got its OK. -/
def Obligations.EncodeBuildsTableAndEndsIdle : Prop :=
  ∀ (s : State) (k : Context), s.Runs k →
    ∃ t k', exec .encode s = .next t ∧ t.ctxs[s.cur]? = some k' ∧
      t.lutValid = true ∧ t.lut = buildLut ∧ k'.phase = .idle ∧ k'.grp = 32#6 ∧ k'.resp = .ok

/-- R120: what ENCODE leaves unchanged on every path: SCAN, SRC_LEN, DST_CAP, LUT_IDX, the elements of OUT from COUNT
on (all of OUT, RLE and COUNT when no run took place), every other context and everything shared but the table. That
accesses the context held come next, in their order, is the model's own (notes/assumptions/5.md). -/
def Obligations.EncodeFrame : Prop :=
  ∀ (s t : State) (k : Context), s.Selected k → exec .encode s = .next t →
    SameOutside s.cur s t ∧ t.cur = s.cur ∧ t.inputs = k.held ++ s.inputs ∧
    ∃ k', t.ctxs[s.cur]? = some k' ∧ k'.pending = none ∧ k'.held = [] ∧
      k'.scan = k.scan ∧ k'.srcLen = k.srcLen ∧ k'.dstCap = k.dstCap ∧ k'.lutIdx = k.lutIdx ∧
      (k'.accel = true → ∀ i : Fin 256, k'.count.toNat ≤ i.val → k'.out[i.val] = k.out[i.val]) ∧
      (k'.accel = false → SameStores k k' ∧ t.lutValid = s.lutValid ∧ t.lut = s.lut)

/-- R184: the scalar encoder and the decoder are inverse on every scanline; and decoding what a full run leaves in
OUT[0..COUNT-1] and RLE gives SCAN back. -/
def Obligations.EncodeThenDecodeIsIdentity : Prop :=
  (∀ S : Pixels, decodeScanline (scalarEncode S).values (scalarEncode S).mask = some S.toList) ∧
  ∀ (s : State) (k : Context), s.Runs k →
    ∃ t k', exec .encode s = .next t ∧ t.ctxs[s.cur]? = some k' ∧
      decodeScanline k'.compacted k'.maskWords = some k.scan.toList

/-- R185: COUNT after a full run is the sum of the groups' kept counts, the number of 0 bits of RLE, and at most 256. -/
def Obligations.EncodeCountLaws : Prop :=
  ∀ (s : State) (k : Context), s.Runs k →
    ∃ t k', exec .encode s = .next t ∧ t.ctxs[s.cur]? = some k' ∧
      k'.count.toNat = ((List.finRange 32).map fun g => popcount8 (dupMask k.scan g ^^^ 0xFF#8)).sum ∧
      k'.count.toNat = (List.range 256).countP (fun p => !maskBit k'.maskWords p) ∧
      k'.count.toNat ≤ 256 ∧
      k'.count.toNat = 256 - (List.range 256).countP (fun p => maskBit k'.maskWords p)

/-- R187, R167: RLE read bit by bit in pixel order is the sequence of duplicate flags. -/
def Obligations.EncodeMaskIsDuplicateFlags : Prop :=
  ∀ (s : State) (k : Context), s.Runs k →
    ∃ t k', exec .encode s = .next t ∧ t.ctxs[s.cur]? = some k' ∧
      ∀ p, p < 256 → (blockWord (k'.rle[p / 64]!)).getLsbD (p % 64) = dupFlag k.scan p

/-- R188: the boundary laws: COUNT = 0 exactly for the all-zero scanline, and then RLE is all ones and OUT is untouched;
a scanline with no duplicate gives COUNT = 256, OUT = SCAN and RLE all zeros. -/
def Obligations.EncodeBoundaryLaws : Prop :=
  ∀ (s : State) (k : Context), s.Runs k →
    ∃ t k', exec .encode s = .next t ∧ t.ctxs[s.cur]? = some k' ∧
      (k'.count.toNat = 0 ↔ ∀ i : Fin 256, k.scan[i.val] = 0#32) ∧
      (k'.count.toNat = 0 → k'.out = k.out ∧ ∀ n : Fin 4, blockWord k'.rle[n.val] = 0xFFFFFFFFFFFFFFFF#64) ∧
      ((∀ p, p < 256 → dupFlag k.scan p = false) →
        k'.count.toNat = 256 ∧ k'.out = k.scan ∧ ∀ n : Fin 4, blockWord k'.rle[n.val] = 0#64)

/-- R123: an ENCODE's result depends only on SCAN, SRC_LEN, DST_CAP and ACCEL_EN: from two states that agree in these,
whatever else they hold, the record is the same, and after a full run so are COUNT, OUT[0..COUNT-1] and RLE. -/
def Obligations.EncodeForgetsHistory : Prop :=
  ∀ (s₁ s₂ : State) (k₁ k₂ : Context), s₁.Selected k₁ → s₂.Selected k₂ →
    (s₁.lutValid = true → s₁.lut = buildLut) → (s₂.lutValid = true → s₂.lut = buildLut) →
    k₁.scan = k₂.scan → k₁.srcLen = k₂.srcLen → k₁.dstCap = k₂.dstCap → s₁.accelEn = s₂.accelEn →
    ∃ t₁ t₂ l₁ l₂, exec .encode s₁ = .next t₁ ∧ exec .encode s₂ = .next t₂ ∧
      t₁.ctxs[s₁.cur]? = some l₁ ∧ t₂.ctxs[s₂.cur]? = some l₂ ∧
      l₁.Record l₂.done l₂.accel l₂.err l₂.lenBad l₂.capBad ∧
      (l₁.accel = true → l₁.count = l₂.count ∧ l₁.compacted = l₂.compacted ∧ l₁.rle = l₂.rle)

/-! ### The datapath -/

/-- R147, R142, R143, R144: bit i of the mask of group g is the duplicate flag of pixel 8g + i: for pixel 0 whether it is
0, for every other whether it equals its left neighbour in SCAN, across group boundaries too. -/
def Obligations.MaskBitIsDuplicateFlag : Prop :=
  ∀ (S : Pixels) (g : Fin 32) (i : Fin 8),
    (dupMask S g).getLsbD i.val = dupFlag S (8 * g.val + i.val) ∧
    (8 * g.val + i.val = 0 → ((dupMask S g).getLsbD i.val = true ↔ S[0] = 0x00000000#32)) ∧
    (∀ p : Fin 255, 8 * g.val + i.val = p.val + 1 → ((dupMask S g).getLsbD i.val = true ↔ S[p.val + 1] = S[p.val]))

/-- R155, R153: with the built table there are as many staged slots as kept lanes, and slot j is the pixel of the kept
lane that has exactly j kept lanes below it. -/
def Obligations.StagedSlotsAreKeptPixels : Prop :=
  ∀ (pix : Vector Pixel 8) (m : Mask),
    (staged pix (lutRead buildLut m) (popcnt8 m)).length = 8 - popcount8 m ∧
    ∀ b : Fin 8, m.getLsbD b.val = false →
      (staged pix (lutRead buildLut m) (popcnt8 m))[((List.finRange 8).filter fun a => a.val < b.val && !m.getLsbD a.val).length]?
        = some pix[b.val]

/-- R136: the first u entries of row m, u the number of unset bits, are unset bit positions, each with exactly as many
unset bits below it as its place in the row, and so strictly increasing; the entries after them are 0. -/
def Obligations.TableRowsListUnsetBits : Prop :=
  ∀ (m : Mask) (j : Fin 8),
    (j.val < 8 - popcount8 m →
      m.getLsbD ((lutRead buildLut m)[j.val]).toNat = false ∧
      ((List.finRange 8).filter fun b => b.val < ((lutRead buildLut m)[j.val]).toNat && !m.getLsbD b.val).length = j.val ∧
      ∀ i : Fin 8, i.val < j.val → ((lutRead buildLut m)[i.val]).toNat < ((lutRead buildLut m)[j.val]).toNat) ∧
    (8 - popcount8 m ≤ j.val → (lutRead buildLut m)[j.val] = 0#3)

/-- R200: the built table, row by row, is the spec's listing; R153: the kept count is the number of unset bits. -/
def Obligations.TableIsAsListed : Prop :=
  lutListing.length = 256 ∧
  ∀ m : Mask, lutListing[m.toNat]? = some (packRow (lutRead buildLut m)) ∧ (popcnt8 m).toNat = 8 - popcount8 m

/-- R164: MASK_PACK replaces bits 8(g mod 8) to 8(g mod 8)+7 of RLE[g / 8] by the mask, and no other bit. -/
def Obligations.MaskPackReplacesEightBits : Prop :=
  ∀ (rle : Blocks) (g : Fin 32) (mask : Mask) (n : Fin 4) (b : Fin 64),
    (blockWord (maskPack rle g mask)[n.val]).getLsbD b.val =
      if n.val = g.val / 8 ∧ b.val / 8 = g.val % 8 then mask.getLsbD (b.val % 8)
      else (blockWord rle[n.val]).getLsbD b.val

/-- R161, R162, R163, R165: a group step writes exactly the staged values to OUT from COUNT on, adds their number to
COUNT, packs the mask, advances GRP, and changes nothing else. -/
def Obligations.GroupStepEffect : Prop :=
  ∀ (lut : Table) (k : Context) (g : Fin 32), k.grp.toNat = g.val → k.count.toNat ≤ 8 * g.val →
    let kept := (popcnt8 (dupMask k.scan g)).toNat
    let stage := staged (pixload k.scan g) (lutRead lut (dupMask k.scan g)) (popcnt8 (dupMask k.scan g))
    let k' := k.groupStep lut
    stage.length = kept ∧
    (∀ i : Fin 256, k'.out[i.val] =
      if k.count.toNat ≤ i.val ∧ i.val < k.count.toNat + kept then stage.getD (i.val - k.count.toNat) 0#32
      else k.out[i.val]) ∧
    k'.count.toNat = k.count.toNat + kept ∧
    k'.rle = maskPack k.rle g (dupMask k.scan g) ∧
    k'.grp.toNat = g.val + 1 ∧
    k' = { k with out := k'.out, count := k'.count, rle := k'.rle, grp := k'.grp }

/-- R168, R153: bounds of a group step: at most 8 kept, every OUT index below 256, and COUNT at most 8 times the group
count afterwards. -/
def Obligations.GroupStepBounds : Prop :=
  ∀ (lut : Table) (k : Context) (g : Fin 32), k.grp.toNat = g.val → k.count.toNat ≤ 8 * g.val →
    (popcnt8 (dupMask k.scan g)).toNat ≤ 8 ∧
    k.count.toNat + (popcnt8 (dupMask k.scan g)).toNat ≤ 256 ∧
    (k.groupStep lut).count.toNat ≤ 8 * (k.groupStep lut).grp.toNat ∧
    (k.groupStep lut).count.toNat ≤ 256

/-! ### The whole machine -/

/-- R134: once LUT_VALID = 1, no step but reset writes LUT or LUT_VALID. -/
def Obligations.BuiltTableIsImmutable : Prop :=
  ∀ s t : State, step s = .next t → s.resetNext = false → s.lutValid = true →
    t.lutValid = true ∧ t.lut = s.lut

/-- R132: with ACCEL_EN = 0 the table is never built: no step but reset makes LUT_VALID 1, or writes LUT. -/
def Obligations.DisabledBlockNeverBuilds : Prop :=
  ∀ s t : State, s.Inv → step s = .next t → s.resetNext = false → s.accelEn = false →
    t.lutValid = false ∧ t.lut = s.lut

/-- R21, R35: ACCEL_EN never changes between resets; nor do NCTX and BASE (R4), at any step. That they stand in
the state is the model's own (notes/assumptions/1.md). -/
def Obligations.ParametersConstantBetweenResets : Prop :=
  ∀ s t : State, step s = .next t →
    (s.resetNext = false → t.accelEn = s.accelEn ∧ t.resets = s.resets) ∧
    t.base = s.base ∧ t.ctxs.length = s.ctxs.length

/-- R47: the invariant, kept by every step. Its clauses on the selected context and on requests are about the model's own
fields (notes/assumptions/4.md, 8.md). -/
def Obligations.EveryStepKeepsInvariant : Prop :=
  ∀ s t : State, s.Inv → step s = .next t → t.Inv

/-- R47: in every state that any run reaches, under any schedule of events, from reset with any legal parameters. -/
def Obligations.ReachableStatesMeetR47 : Prop :=
  ∀ (p : Params) (r : Nat) (inputs : List Event) (n : Nat) (s : State), p.wf = true →
    core.run n (State.resetWith p r inputs) = .next s →
    (s.lutValid = true → s.lut = buildLut) ∧ (s.lutValid = true → s.accelEn = true) ∧
    ∀ k ∈ s.ctxs,
      k.count.toNat ≤ 256 ∧
      (k.phase = .run → k.count.toNat ≤ 8 * k.grp.toNat ∧ k.grp.toNat ≤ 32) ∧
      (k.err ≠ 0#4 → k.done = false ∧ k.accel = false) ∧
      (k.accel = true → k.done = true) ∧
      (k.lenBad = true ∨ k.capBad = true → k.err = 1#4) ∧
      (k.phase = .run → s.lutValid = true ∧ s.accelEn = true)

/-- R47 holds right after any reset of a block with legal parameters (R46, R4). -/
def Obligations.ResetMeetsInvariant : Prop :=
  State.reset.Inv ∧
  ∀ (p : Params) (r : Nat) (inputs : List Event), p.wf = true → (State.resetWith p r inputs).Inv

/-- R161 to R168, R170: every step, of whatever agent, keeps what every run in progress has produced so far right. -/
def Obligations.EveryStepKeepsPartialResults : Prop :=
  ∀ s t : State, s.Inv → s.PartialResults → step s = .next t → t.PartialResults

/-- R166, R169, R182 for an interleaved run: the step that completes a run whose partial result is right leaves the
encoding of SCAN, whatever steps other agents took during the run. -/
def Obligations.CompletedRunIsScalarEncode : Prop :=
  ∀ (s : State) (c : Nat) (k : Context), s.Inv → s.PartialResults → s.ctxs[c]? = some k →
    k.phase = .run → k.grp = 31#6 →
    ∃ k', (s.sequencerStep c).ctxs[c]? = some k' ∧
      k'.phase = .idle ∧ k'.Record true true 0#4 false false ∧ k'.scan = k.scan ∧
      k'.count.toNat = (scalarEncode k.scan).count ∧
      k'.compacted = (scalarEncode k.scan).values ∧
      k'.maskWords = (scalarEncode k.scan).mask

/-- R70. What is written: an event changes no context but the one it is addressed to. What is read: two states that agree
in the shared part, in the next event and in context c have the same context c after the step, whatever the other
contexts hold, and the same shared part if the event is addressed to c. A step with nothing scheduled is the step of one
context's builder or sequencer event, or changes nothing: which one is the model's own (notes/assumptions/3.md). -/
def Obligations.ContextsDoNotInteract : Prop :=
  (∀ (s t : State) (e : Event) (rest : List Event), s.inputs = e :: rest → s.resetNext = false → step s = .next t →
    ∀ d, s.target e ≠ some d → t.ctxs[d]? = s.ctxs[d]?) ∧
  (∀ (s₁ s₂ t₁ t₂ : State) (e : Event) (rest₁ rest₂ : List Event) (c : Nat),
    s₁.inputs = e :: rest₁ → s₂.inputs = e :: rest₂ → SameShared s₁ s₂ → s₁.ctxs[c]? = s₂.ctxs[c]? →
    step s₁ = .next t₁ → step s₂ = .next t₂ →
    t₁.ctxs[c]? = t₂.ctxs[c]? ∧ (s₁.target e = some c → SameShared t₁ t₂)) ∧
  ∀ s : State, s.inputs = [] →
    step s = .next s ∨
    ∃ c, step s = step { s with inputs := [.builder c] } ∨ step s = step { s with inputs := [.sequencer c] }

/-- R170: the sequencer steps of two contexts commute: same contexts, same table, in either order. -/
def Obligations.SequencerStepsCommute : Prop :=
  ∀ (s : State) (a b : Nat), a ≠ b →
    ((s.sequencerStep a).sequencerStep b).ctxs = ((s.sequencerStep b).sequencerStep a).ctxs ∧
    ((s.sequencerStep a).sequencerStep b).lut = ((s.sequencerStep b).sequencerStep a).lut ∧
    ((s.sequencerStep a).sequencerStep b).lutValid = ((s.sequencerStep b).sequencerStep a).lutValid

/-- R131: when two contexts both wait for the builder, the one served first builds and the other changes nothing of the
table; in either order the table and both contexts come out the same. That a command waits in its context is the
model's own (notes/assumptions/4.md, 15.md). -/
def Obligations.RacingBuildsAgree : Prop :=
  ∀ (s : State) (a b : Nat) (ka kb : Context), a ≠ b → s.lutValid = false →
    s.ctxs[a]? = some ka → s.ctxs[b]? = some kb → ka.pending.isSome = true → kb.pending.isSome = true →
    (s.builderStep a).lutValid = true ∧ (s.builderStep a).lut = buildLut ∧
    ((s.builderStep a).builderStep b).lutValid = true ∧
    ((s.builderStep a).builderStep b).lut = buildLut ∧
    ((s.builderStep a).builderStep b).ctxs = ((s.builderStep b).builderStep a).ctxs

/-- R170: a run finishes after exactly the group steps that are left: its sequencer's steps keep it running until GRP
would be 32, and then it is complete. That the accesses it held come next, in their order, is the model's own
(notes/assumptions/5.md). -/
def Obligations.RunEndsAfterRemainingSteps : Prop :=
  ∀ (s : State) (c : Nat) (k : Context) (n : Nat) (rest : List Event),
    s.ctxs[c]? = some k → k.phase = .run → k.grp.toNat < 32 → n ≤ 32 - k.grp.toNat →
    ∃ t k', core.run n { s with inputs := List.replicate n (.sequencer c) ++ rest } = .next t ∧
      t.inputs = (if n = 32 - k.grp.toNat then k.held ++ rest else rest) ∧ t.ctxs[c]? = some k' ∧
      (n < 32 - k.grp.toNat → k'.phase = .run ∧ k'.grp.toNat = k.grp.toNat + n) ∧
      (n = 32 - k.grp.toNat → k'.phase = .idle ∧ k'.grp = 32#6 ∧ k'.done = true ∧ k'.accel = true)

/-- R132, R161, R170, R236: a step that is not enabled changes nothing: a builder event for a context with no request, a
sequencer event for a context whose PHASE is IDLE (or for either a context that does not exist) leaves everything but the
schedule as it was, and so does a step with nothing scheduled and no context inside a command. That such events can stand
in a schedule at all, and that a request waits in its context, is the model's own (notes/assumptions/3.md, 4.md). -/
def Obligations.StepsNotEnabledChangeNothing : Prop :=
  (∀ (s : State) (c : Nat) (rest : List Event), s.inputs = .builder c :: rest →
    (∀ k, s.ctxs[c]? = some k → k.pending = none) → step s = .next { s with inputs := rest }) ∧
  (∀ (s : State) (c : Nat) (rest : List Event), s.inputs = .sequencer c :: rest →
    (∀ k, s.ctxs[c]? = some k → k.phase = .idle) → step s = .next { s with inputs := rest }) ∧
  ∀ s : State, s.inputs = [] → (∀ k ∈ s.ctxs, k.busy = false) → step s = .next s

/-- R132: the build step is requested in two places only. A request is there after a step only if it was there before or
the step issues that command: a CMD write of its word to a context in no command, with ACCEL_EN = 1 and, for ENCODE, good
declarations. And a step that is not a reset changes LUT or LUT_VALID only as the builder's step for a request that is
there, or as such a command taken whole. That a request waits in its context, the two ways to take a command, and what an
empty schedule does, are the model's own (notes/assumptions/3.md, 4.md, 15.md). -/
def Obligations.TableIsBuiltOnlyOnRequest : Prop :=
  (∀ (s t : State) (c : Nat) (k' : Context) (i : Instr), step s = .next t → t.ctxs[c]? = some k' →
    k'.pending = some i →
    (∃ k, s.ctxs[c]? = some k ∧ k.pending = some i) ∨
    ∃ a rest k, s.inputs = .issue a :: rest ∧ s.Commands a c k i) ∧
  ∀ s t : State, step s = .next t → s.resetNext = false → t.lutValid ≠ s.lutValid ∨ t.lut ≠ s.lut →
    (∃ c k, s.ctxs[c]? = some k ∧ k.pending.isSome = true ∧ s.Drives c k) ∨
    ∃ a rest c k i, s.inputs = .access a :: rest ∧ s.Commands a c k i

/-- R261: a context inside a command needs a bounded number of steps of the builder and of its own sequencer: each such
step takes one off, no other step but reset adds one, and the command is over exactly when none is left. So a command
ends under every schedule that goes on giving it its steps. That a request waits in its context is the model's own
(notes/assumptions/4.md), and so is the order of steps with nothing scheduled (3.md). -/
def Obligations.CommandsInProgressAdvance : Prop :=
  ∀ (s t : State) (c : Nat) (k : Context), s.Inv → step s = .next t → s.resetNext = false →
    s.ctxs[c]? = some k → k.busy = true →
    0 < k.stepsLeft ∧ k.stepsLeft ≤ 33 ∧
    ∃ k', t.ctxs[c]? = some k' ∧
      k'.stepsLeft ≤ k.stepsLeft ∧
      (s.Drives c k → k'.stepsLeft + 1 = k.stepsLeft) ∧
      (k'.busy = true ↔ 0 < k'.stepsLeft)

/-- R116, R122: an issued ENCODE, served by the builder and by 32 steps of its sequencer, ends in the very state that
the command taken whole leaves. Both forms are the model's own (notes/assumptions/4.md, 15.md). -/
def Obligations.IssuedEncodeEqualsWholeEncode : Prop :=
  ∀ (s : State) (a : Access) (c : Nat) (k : Context) (rest : List Event),
    s.locate a.addr = some (c, 0x000) → a.width = 4 → a.addr % 4 = 0 → a.dir = .write (encode .encode) →
    s.ctxs[c]? = some k → k.busy = false → k.rejects = false → s.accelEn = true →
    core.run 34 { s with inputs := .issue a :: .builder c :: (List.replicate 32 (.sequencer c) ++ rest) } =
      step { s with inputs := .access a :: rest }

/-- R111, R131: the same for LUTBUILD: issued and served by the builder, it equals the command taken whole. Both forms are the
model's own (notes/assumptions/4.md, 15.md). -/
def Obligations.IssuedLutbuildEqualsWholeLutbuild : Prop :=
  ∀ (s : State) (a : Access) (c : Nat) (k : Context) (rest : List Event),
    s.locate a.addr = some (c, 0x000) → a.width = 4 → a.addr % 4 = 0 → a.dir = .write (encode .lutbuild) →
    s.ctxs[c]? = some k → k.busy = false → s.accelEn = true →
    core.run 2 { s with inputs := .issue a :: .builder c :: rest } = step { s with inputs := .access a :: rest }

/-- R111, R113, R114, R122: a command that does not need the table ends in the host's own step, so that issued or taken
whole it is the same: an ENCODE with bad declarations, and either command with ACCEL_EN = 0. Both forms are the model's
own (notes/assumptions/4.md, 15.md). -/
def Obligations.IssuedCommandWithoutTableEqualsWhole : Prop :=
  ∀ (s : State) (a : Access) (c : Nat) (k : Context) (rest : List Event) (i : Instr),
    s.locate a.addr = some (c, 0x000) → a.width = 4 → a.addr % 4 = 0 → a.dir = .write (encode i) →
    s.ctxs[c]? = some k → k.busy = false → ((i = .encode ∧ k.rejects = true) ∨ s.accelEn = false) →
    step { s with inputs := .issue a :: rest } = step { s with inputs := .access a :: rest } ∧
    ∃ t k', step { s with inputs := .issue a :: rest } = .next t ∧ t.ctxs[c]? = some k' ∧ k'.busy = false

/-! ### The port -/

/-- R61: the register map: regAt finds every register at its offset, and an aligned offset of the page at which no
register stands is reserved. -/
def Obligations.RegisterMapAsTabled : Prop :=
  (∀ (r : Reg) (off : Nat), r.offset = some off → regAt off = r ∧ off < pageBytes ∧ off % 4 = 0) ∧
  (∀ off, off % 4 = 0 → regAt off ≠ .reserved → (regAt off).offset = some off)

/-- R62: the page of context c starts at BASE + 0x1000 × c, and the block decodes nothing outside its NCTX pages. -/
def Obligations.PagesAsPlaced : Prop :=
  ∀ s : State,
    (∀ c off, c < s.ctxs.length → off < pageBytes → s.locate (s.base + 0x1000 * c + off) = some (c, off)) ∧
    (∀ a, (a < s.base ∨ s.base + 0x1000 * s.ctxs.length ≤ a) → s.locate a = none)

/-- R118: host writes: SRC_LEN, DST_CAP, LUT_IDX (bits 7:0) and SCAN[i] take the value, the response is OK, and nothing
else changes. -/
def Obligations.WritesStoreTheNamedRegister : Prop :=
  ∀ (s : State) (a : Access) (c off : Nat) (k : Context) (rest : List Event) (v : Word),
    s.Presents a c off k rest → a.width = 4 → a.addr % 4 = 0 → a.dir = .write v →
    (off = 0x008 → step s = .next { s with inputs := rest, ctxs := s.ctxs.set c { k with srcLen := v, resp := .ok } }) ∧
    (off = 0x00C → step s = .next { s with inputs := rest, ctxs := s.ctxs.set c { k with dstCap := v, resp := .ok } }) ∧
    (off = 0x014 →
      step s = .next { s with inputs := rest, ctxs := s.ctxs.set c { k with lutIdx := v.extractLsb' 0 8, resp := .ok } }) ∧
    (∀ i : Fin 256, off = 0x400 + 4 * i.val →
      step s = .next { s with inputs := rest, ctxs := s.ctxs.set c { k with scan := k.scan.set i.val v, resp := .ok } })

/-- R119, R66: host reads: every readable register returns its value, and a read changes nothing but the response. -/
def Obligations.ReadsReturnTheNamedRegister : Prop :=
  ∀ (s : State) (a : Access) (c off : Nat) (k : Context) (rest : List Event),
    s.Presents a c off k rest → a.width = 4 → a.addr % 4 = 0 → a.dir = .read →
    let answers := fun v : Word =>
      step s = .next { s with inputs := rest, ctxs := s.ctxs.set c { k with resp := .data v } }
    (off = 0x004 → answers (statusWord s.accelEn s.lutValid k)) ∧
    (off = 0x008 → answers k.srcLen) ∧
    (off = 0x00C → answers k.dstCap) ∧
    (off = 0x010 → answers (k.count.setWidth 32)) ∧
    (off = 0x014 → answers (k.lutIdx.setWidth 32)) ∧
    (off = 0x018 → answers (lutWindow s.lutValid s.lut k.lutIdx)) ∧
    (∀ n : Fin 4, off = 0x020 + 8 * n.val → answers ((blockWord k.rle[n.val]).extractLsb' 0 32)) ∧
    (∀ n : Fin 4, off = 0x024 + 8 * n.val → answers ((blockWord k.rle[n.val]).extractLsb' 32 32)) ∧
    (∀ i : Fin 256, off = 0x400 + 4 * i.val → answers k.scan[i.val]) ∧
    (∀ i : Fin 256, off = 0x800 + 4 * i.val → answers k.out[i.val])

/-- R63, R65, R223, R226: an access of another width, at another alignment, to a reserved offset, a read of CMD or a
write to a read-only register gets ERROR and changes nothing else: not the record, and no command is accepted. -/
def Obligations.IllegalAccessesGetErrorOnly : Prop :=
  ∀ (s : State) (a : Access) (c off : Nat) (k : Context) (rest : List Event),
    s.Presents a c off k rest →
    (a.width ≠ 4 ∨ a.addr % 4 ≠ 0 ∨
      off = 0x01C ∨ (0x040 ≤ off ∧ off < 0x400) ∨ 0xC00 ≤ off ∨
      (a.dir = .read ∧ off = 0x000) ∨
      ((∃ v, a.dir = .write v) ∧ (off = 0x004 ∨ off = 0x010 ∨ off = 0x018 ∨ (0x020 ≤ off ∧ off < 0x040) ∨
        (0x800 ≤ off ∧ off < 0xC00)))) →
    step s = .next { s with inputs := rest, ctxs := s.ctxs.set c { k with resp := .error } }

/-- R222, R227, R97: a CMD write of a word that is no command completes with OK and records ERR = 2 over a cleared
record; no store, no table and no other context changes. -/
def Obligations.IllegalCommandRecordsCodeTwo : Prop :=
  ∀ (s : State) (a : Access) (c : Nat) (k : Context) (rest : List Event) (w : Word),
    s.Presents a c 0x000 k rest → a.width = 4 → a.addr % 4 = 0 → a.dir = .write w →
    w ≠ 0x00000001#32 → w ≠ 0x00000002#32 →
    ∃ t k', step s = .next t ∧ t.ctxs[c]? = some k' ∧ k'.Record false false 2#4 false false ∧ k'.resp = .ok ∧
      SameStores k k' ∧ SameButContext c s t

/-- R69: an access to the page of a context that is inside a command is held: it joins the held accesses and has no
other effect, whatever it is. For a command that waits for the builder this is the model's own
(notes/assumptions/5.md). -/
def Obligations.BusyContextHoldsAccesses : Prop :=
  ∀ (s : State) (e : Event) (a : Access) (c off : Nat) (k : Context) (rest : List Event),
    (e = .access a ∨ e = .issue a) → s.inputs = e :: rest → s.locate a.addr = some (c, off) →
    s.ctxs[c]? = some k → k.busy = true →
    step s = .next { s with inputs := rest, ctxs := s.ctxs.set c { k with held := k.held ++ [e] } }

/-- R69: when a run completes, its held accesses proceed next, in the order they came (the order is the model's own,
notes/assumptions/5.md), and none is held any more. -/
def Obligations.CompletionReleasesHeldAccesses : Prop :=
  ∀ (s : State) (c : Nat) (k : Context), s.ctxs[c]? = some k → k.phase = .run → k.grp = 31#6 →
    ∃ k', (s.sequencerStep c).ctxs[c]? = some k' ∧ k'.busy = false ∧ k'.held = [] ∧
      (s.sequencerStep c).inputs = k.held ++ s.inputs

/-- R62: an access outside the block's pages changes nothing. That it gets no response is the model's reading
(notes/assumptions/6.md). -/
def Obligations.AccessOutsidePagesChangesNothing : Prop :=
  ∀ (s : State) (a : Access) (rest : List Event),
    (s.inputs = .access a :: rest ∨ s.inputs = .issue a :: rest) →
    (a.addr < s.base ∨ s.base + 0x1000 * s.ctxs.length ≤ a.addr) →
    step s = .next { s with inputs := rest }

/-- R46, R250, R251, R252: reset: the table is gone, ACCEL_EN is sampled, and every context, also one in the middle of a
command, is idle with the reset values the spec states; nothing of a command in progress or of a held access stays. -/
def Obligations.ResetRestoresEveryContext : Prop :=
  ∀ (s : State) (rest : List Event) (accelEn : Bool), s.inputs = .reset accelEn :: rest →
    ∃ t, step s = .next t ∧ t.accelEn = accelEn ∧ t.lutValid = false ∧ t.inputs = rest ∧
      t.base = s.base ∧ t.ctxs.length = s.ctxs.length ∧
      ∀ k ∈ t.ctxs, k.count = 0#9 ∧ k.srcLen = 0#32 ∧ k.dstCap = 0#32 ∧ k.lutIdx = 0#8 ∧
        k.Record false false 0#4 false false ∧ k.phase = .idle ∧ k.grp = 0#6 ∧
        k.pending = none ∧ k.held = [] ∧
        statusWord t.accelEn t.lutValid k = (if accelEn then 0x00000008#32 else 0x00000000#32)

/-- R31, R34, R35, R38: every bit of STATUS. -/
def Obligations.StatusBits : Prop :=
  ∀ (accelEn lutValid : Bool) (k : Context) (i : Nat),
    (statusWord accelEn lutValid k).getLsbD i =
      if i = 0 then k.done else if i = 1 then k.accel else if i = 2 then lutValid else if i = 3 then accelEn
      else if i < 8 then k.err.getLsbD (i - 4) else if i = 8 then k.lenBad else if i = 9 then k.capBad else false

/-- R137: the LUT_ROW window: entry j of the selected row at bits 4j+2 to 4j with bit 4j+3 zero, once the table is
built; 0 until then. -/
def Obligations.LutWindowShowsSelectedRow : Prop :=
  ∀ (lutValid : Bool) (lut : Table) (idx : BitVec 8),
    (lutValid = true → ∀ j : Fin 8,
      (lutWindow lutValid lut idx).extractLsb' (4 * j.val) 4 = ((lutRead lut idx)[j.val]).setWidth 4) ∧
    (lutValid = false → lutWindow lutValid lut idx = 0x00000000#32)

/-- R64: the 32 bytes from offset 0x020: byte 0x020 + g is byte g mod 8 of RLE[g / 8], and after a full run it is the mask
of group g, whose bit i is the duplicate flag of pixel 8g + i (R147). A byte-addressed view is a function of the
registers, not an access of the port (notes/assumptions/18.md). -/
def Obligations.RleBytesAreGroupMasks : Prop :=
  (∀ (s : State) (k : Context) (g : Fin 32),
    s.pageByte k (0x020 + g.val) = some ((blockWord k.rle[g.val / 8]).extractLsb' (8 * (g.val % 8)) 8)) ∧
  ∀ (s : State) (k : Context), s.Runs k →
    ∃ t k', exec .encode s = .next t ∧ t.ctxs[s.cur]? = some k' ∧
      ∀ g : Fin 32, t.pageByte k' (0x020 + g.val) = some (dupMask k.scan g) ∧
        ∀ i : Fin 8, (dupMask k.scan g).getLsbD i.val = dupFlag k.scan (8 * g.val + i.val)
end

