-- ==== Sys2Proof/Laws/State.lean ====
section
/-! SUPPORT. What each update of a context or of the state does to each field: one equation per field per update, so that
no later proof unfolds a record update. -/

namespace Sys2Proof.Machine

/-! ### accept -/

@[simp] theorem Context.accept_scan (k : Context) : (k.accept).scan = k.scan := rfl
@[simp] theorem Context.accept_out (k : Context) : (k.accept).out = k.out := rfl
@[simp] theorem Context.accept_rle (k : Context) : (k.accept).rle = k.rle := rfl
@[simp] theorem Context.accept_count (k : Context) : (k.accept).count = k.count := rfl
@[simp] theorem Context.accept_srcLen (k : Context) : (k.accept).srcLen = k.srcLen := rfl
@[simp] theorem Context.accept_dstCap (k : Context) : (k.accept).dstCap = k.dstCap := rfl
@[simp] theorem Context.accept_lutIdx (k : Context) : (k.accept).lutIdx = k.lutIdx := rfl
@[simp] theorem Context.accept_done (k : Context) : (k.accept).done = false := rfl
@[simp] theorem Context.accept_accel (k : Context) : (k.accept).accel = false := rfl
@[simp] theorem Context.accept_err (k : Context) : (k.accept).err = 0#4 := rfl
@[simp] theorem Context.accept_lenBad (k : Context) : (k.accept).lenBad = false := rfl
@[simp] theorem Context.accept_capBad (k : Context) : (k.accept).capBad = false := rfl
@[simp] theorem Context.accept_phase (k : Context) : (k.accept).phase = k.phase := rfl
@[simp] theorem Context.accept_grp (k : Context) : (k.accept).grp = k.grp := rfl
@[simp] theorem Context.accept_pending (k : Context) : (k.accept).pending = k.pending := rfl
@[simp] theorem Context.accept_held (k : Context) : (k.accept).held = k.held := rfl
@[simp] theorem Context.accept_resp (k : Context) : (k.accept).resp = k.resp := rfl

/-! ### respond -/

@[simp] theorem Context.respond_scan (k : Context) (r : Response) : (k.respond r).scan = k.scan := rfl
@[simp] theorem Context.respond_out (k : Context) (r : Response) : (k.respond r).out = k.out := rfl
@[simp] theorem Context.respond_rle (k : Context) (r : Response) : (k.respond r).rle = k.rle := rfl
@[simp] theorem Context.respond_count (k : Context) (r : Response) : (k.respond r).count = k.count := rfl
@[simp] theorem Context.respond_srcLen (k : Context) (r : Response) : (k.respond r).srcLen = k.srcLen := rfl
@[simp] theorem Context.respond_dstCap (k : Context) (r : Response) : (k.respond r).dstCap = k.dstCap := rfl
@[simp] theorem Context.respond_lutIdx (k : Context) (r : Response) : (k.respond r).lutIdx = k.lutIdx := rfl
@[simp] theorem Context.respond_done (k : Context) (r : Response) : (k.respond r).done = k.done := rfl
@[simp] theorem Context.respond_accel (k : Context) (r : Response) : (k.respond r).accel = k.accel := rfl
@[simp] theorem Context.respond_err (k : Context) (r : Response) : (k.respond r).err = k.err := rfl
@[simp] theorem Context.respond_lenBad (k : Context) (r : Response) : (k.respond r).lenBad = k.lenBad := rfl
@[simp] theorem Context.respond_capBad (k : Context) (r : Response) : (k.respond r).capBad = k.capBad := rfl
@[simp] theorem Context.respond_phase (k : Context) (r : Response) : (k.respond r).phase = k.phase := rfl
@[simp] theorem Context.respond_grp (k : Context) (r : Response) : (k.respond r).grp = k.grp := rfl
@[simp] theorem Context.respond_pending (k : Context) (r : Response) : (k.respond r).pending = k.pending := rfl
@[simp] theorem Context.respond_held (k : Context) (r : Response) : (k.respond r).held = k.held := rfl
@[simp] theorem Context.respond_resp (k : Context) (r : Response) : (k.respond r).resp = r := rfl

/-! ### startRun -/

@[simp] theorem Context.startRun_scan (k : Context) : (k.startRun).scan = k.scan := rfl
@[simp] theorem Context.startRun_out (k : Context) : (k.startRun).out = k.out := rfl
@[simp] theorem Context.startRun_rle (k : Context) : (k.startRun).rle = k.rle := rfl
@[simp] theorem Context.startRun_count (k : Context) : (k.startRun).count = 0#9 := rfl
@[simp] theorem Context.startRun_srcLen (k : Context) : (k.startRun).srcLen = k.srcLen := rfl
@[simp] theorem Context.startRun_dstCap (k : Context) : (k.startRun).dstCap = k.dstCap := rfl
@[simp] theorem Context.startRun_lutIdx (k : Context) : (k.startRun).lutIdx = k.lutIdx := rfl
@[simp] theorem Context.startRun_done (k : Context) : (k.startRun).done = k.done := rfl
@[simp] theorem Context.startRun_accel (k : Context) : (k.startRun).accel = k.accel := rfl
@[simp] theorem Context.startRun_err (k : Context) : (k.startRun).err = k.err := rfl
@[simp] theorem Context.startRun_lenBad (k : Context) : (k.startRun).lenBad = k.lenBad := rfl
@[simp] theorem Context.startRun_capBad (k : Context) : (k.startRun).capBad = k.capBad := rfl
@[simp] theorem Context.startRun_phase (k : Context) : (k.startRun).phase = .run := rfl
@[simp] theorem Context.startRun_grp (k : Context) : (k.startRun).grp = 0#6 := rfl
@[simp] theorem Context.startRun_pending (k : Context) : (k.startRun).pending = k.pending := rfl
@[simp] theorem Context.startRun_held (k : Context) : (k.startRun).held = k.held := rfl
@[simp] theorem Context.startRun_resp (k : Context) : (k.startRun).resp = k.resp := rfl

/-! ### completeRun -/

@[simp] theorem Context.completeRun_scan (k : Context) : (k.completeRun).scan = k.scan := rfl
@[simp] theorem Context.completeRun_out (k : Context) : (k.completeRun).out = k.out := rfl
@[simp] theorem Context.completeRun_rle (k : Context) : (k.completeRun).rle = k.rle := rfl
@[simp] theorem Context.completeRun_count (k : Context) : (k.completeRun).count = k.count := rfl
@[simp] theorem Context.completeRun_srcLen (k : Context) : (k.completeRun).srcLen = k.srcLen := rfl
@[simp] theorem Context.completeRun_dstCap (k : Context) : (k.completeRun).dstCap = k.dstCap := rfl
@[simp] theorem Context.completeRun_lutIdx (k : Context) : (k.completeRun).lutIdx = k.lutIdx := rfl
@[simp] theorem Context.completeRun_done (k : Context) : (k.completeRun).done = true := rfl
@[simp] theorem Context.completeRun_accel (k : Context) : (k.completeRun).accel = true := rfl
@[simp] theorem Context.completeRun_err (k : Context) : (k.completeRun).err = k.err := rfl
@[simp] theorem Context.completeRun_lenBad (k : Context) : (k.completeRun).lenBad = k.lenBad := rfl
@[simp] theorem Context.completeRun_capBad (k : Context) : (k.completeRun).capBad = k.capBad := rfl
@[simp] theorem Context.completeRun_phase (k : Context) : (k.completeRun).phase = .idle := rfl
@[simp] theorem Context.completeRun_grp (k : Context) : (k.completeRun).grp = k.grp := rfl
@[simp] theorem Context.completeRun_pending (k : Context) : (k.completeRun).pending = k.pending := rfl
@[simp] theorem Context.completeRun_held (k : Context) : (k.completeRun).held = k.held := rfl
@[simp] theorem Context.completeRun_resp (k : Context) : (k.completeRun).resp = k.resp := rfl

/-! ### takeTrap_pv -/

@[simp] theorem Context.takeTrap_pv_scan (k : Context) (cap len : Bool) : (k.takeTrap (.preconditionViolation cap len)).scan = k.scan := rfl
@[simp] theorem Context.takeTrap_pv_out (k : Context) (cap len : Bool) : (k.takeTrap (.preconditionViolation cap len)).out = k.out := rfl
@[simp] theorem Context.takeTrap_pv_rle (k : Context) (cap len : Bool) : (k.takeTrap (.preconditionViolation cap len)).rle = k.rle := rfl
@[simp] theorem Context.takeTrap_pv_count (k : Context) (cap len : Bool) : (k.takeTrap (.preconditionViolation cap len)).count = k.count := rfl
@[simp] theorem Context.takeTrap_pv_srcLen (k : Context) (cap len : Bool) : (k.takeTrap (.preconditionViolation cap len)).srcLen = k.srcLen := rfl
@[simp] theorem Context.takeTrap_pv_dstCap (k : Context) (cap len : Bool) : (k.takeTrap (.preconditionViolation cap len)).dstCap = k.dstCap := rfl
@[simp] theorem Context.takeTrap_pv_lutIdx (k : Context) (cap len : Bool) : (k.takeTrap (.preconditionViolation cap len)).lutIdx = k.lutIdx := rfl
@[simp] theorem Context.takeTrap_pv_done (k : Context) (cap len : Bool) : (k.takeTrap (.preconditionViolation cap len)).done = k.done := rfl
@[simp] theorem Context.takeTrap_pv_accel (k : Context) (cap len : Bool) : (k.takeTrap (.preconditionViolation cap len)).accel = k.accel := rfl
@[simp] theorem Context.takeTrap_pv_err (k : Context) (cap len : Bool) : (k.takeTrap (.preconditionViolation cap len)).err = 1#4 := rfl
@[simp] theorem Context.takeTrap_pv_lenBad (k : Context) (cap len : Bool) : (k.takeTrap (.preconditionViolation cap len)).lenBad = len := rfl
@[simp] theorem Context.takeTrap_pv_capBad (k : Context) (cap len : Bool) : (k.takeTrap (.preconditionViolation cap len)).capBad = cap := rfl
@[simp] theorem Context.takeTrap_pv_phase (k : Context) (cap len : Bool) : (k.takeTrap (.preconditionViolation cap len)).phase = k.phase := rfl
@[simp] theorem Context.takeTrap_pv_grp (k : Context) (cap len : Bool) : (k.takeTrap (.preconditionViolation cap len)).grp = k.grp := rfl
@[simp] theorem Context.takeTrap_pv_pending (k : Context) (cap len : Bool) : (k.takeTrap (.preconditionViolation cap len)).pending = k.pending := rfl
@[simp] theorem Context.takeTrap_pv_held (k : Context) (cap len : Bool) : (k.takeTrap (.preconditionViolation cap len)).held = k.held := rfl
@[simp] theorem Context.takeTrap_pv_resp (k : Context) (cap len : Bool) : (k.takeTrap (.preconditionViolation cap len)).resp = k.resp := rfl

/-! ### takeTrap_illegal -/

@[simp] theorem Context.takeTrap_illegal_scan (k : Context) : (k.takeTrap .illegalCommand).scan = k.scan := rfl
@[simp] theorem Context.takeTrap_illegal_out (k : Context) : (k.takeTrap .illegalCommand).out = k.out := rfl
@[simp] theorem Context.takeTrap_illegal_rle (k : Context) : (k.takeTrap .illegalCommand).rle = k.rle := rfl
@[simp] theorem Context.takeTrap_illegal_count (k : Context) : (k.takeTrap .illegalCommand).count = k.count := rfl
@[simp] theorem Context.takeTrap_illegal_srcLen (k : Context) : (k.takeTrap .illegalCommand).srcLen = k.srcLen := rfl
@[simp] theorem Context.takeTrap_illegal_dstCap (k : Context) : (k.takeTrap .illegalCommand).dstCap = k.dstCap := rfl
@[simp] theorem Context.takeTrap_illegal_lutIdx (k : Context) : (k.takeTrap .illegalCommand).lutIdx = k.lutIdx := rfl
@[simp] theorem Context.takeTrap_illegal_done (k : Context) : (k.takeTrap .illegalCommand).done = k.done := rfl
@[simp] theorem Context.takeTrap_illegal_accel (k : Context) : (k.takeTrap .illegalCommand).accel = k.accel := rfl
@[simp] theorem Context.takeTrap_illegal_err (k : Context) : (k.takeTrap .illegalCommand).err = 2#4 := rfl
@[simp] theorem Context.takeTrap_illegal_lenBad (k : Context) : (k.takeTrap .illegalCommand).lenBad = k.lenBad := rfl
@[simp] theorem Context.takeTrap_illegal_capBad (k : Context) : (k.takeTrap .illegalCommand).capBad = k.capBad := rfl
@[simp] theorem Context.takeTrap_illegal_phase (k : Context) : (k.takeTrap .illegalCommand).phase = k.phase := rfl
@[simp] theorem Context.takeTrap_illegal_grp (k : Context) : (k.takeTrap .illegalCommand).grp = k.grp := rfl
@[simp] theorem Context.takeTrap_illegal_pending (k : Context) : (k.takeTrap .illegalCommand).pending = k.pending := rfl
@[simp] theorem Context.takeTrap_illegal_held (k : Context) : (k.takeTrap .illegalCommand).held = k.held := rfl
@[simp] theorem Context.takeTrap_illegal_resp (k : Context) : (k.takeTrap .illegalCommand).resp = k.resp := rfl

/-! ### takeTrap_access -/

@[simp] theorem Context.takeTrap_access_scan (k : Context) : (k.takeTrap .accessError).scan = k.scan := rfl
@[simp] theorem Context.takeTrap_access_out (k : Context) : (k.takeTrap .accessError).out = k.out := rfl
@[simp] theorem Context.takeTrap_access_rle (k : Context) : (k.takeTrap .accessError).rle = k.rle := rfl
@[simp] theorem Context.takeTrap_access_count (k : Context) : (k.takeTrap .accessError).count = k.count := rfl
@[simp] theorem Context.takeTrap_access_srcLen (k : Context) : (k.takeTrap .accessError).srcLen = k.srcLen := rfl
@[simp] theorem Context.takeTrap_access_dstCap (k : Context) : (k.takeTrap .accessError).dstCap = k.dstCap := rfl
@[simp] theorem Context.takeTrap_access_lutIdx (k : Context) : (k.takeTrap .accessError).lutIdx = k.lutIdx := rfl
@[simp] theorem Context.takeTrap_access_done (k : Context) : (k.takeTrap .accessError).done = k.done := rfl
@[simp] theorem Context.takeTrap_access_accel (k : Context) : (k.takeTrap .accessError).accel = k.accel := rfl
@[simp] theorem Context.takeTrap_access_err (k : Context) : (k.takeTrap .accessError).err = k.err := rfl
@[simp] theorem Context.takeTrap_access_lenBad (k : Context) : (k.takeTrap .accessError).lenBad = k.lenBad := rfl
@[simp] theorem Context.takeTrap_access_capBad (k : Context) : (k.takeTrap .accessError).capBad = k.capBad := rfl
@[simp] theorem Context.takeTrap_access_phase (k : Context) : (k.takeTrap .accessError).phase = k.phase := rfl
@[simp] theorem Context.takeTrap_access_grp (k : Context) : (k.takeTrap .accessError).grp = k.grp := rfl
@[simp] theorem Context.takeTrap_access_pending (k : Context) : (k.takeTrap .accessError).pending = k.pending := rfl
@[simp] theorem Context.takeTrap_access_held (k : Context) : (k.takeTrap .accessError).held = k.held := rfl
@[simp] theorem Context.takeTrap_access_resp (k : Context) : (k.takeTrap .accessError).resp = .error := rfl

/-! ### ended -/

@[simp] theorem Context.ended_scan (k : Context) : k.ended.scan = k.scan := rfl
@[simp] theorem Context.ended_out (k : Context) : k.ended.out = k.out := rfl
@[simp] theorem Context.ended_rle (k : Context) : k.ended.rle = k.rle := rfl
@[simp] theorem Context.ended_count (k : Context) : k.ended.count = k.count := rfl
@[simp] theorem Context.ended_srcLen (k : Context) : k.ended.srcLen = k.srcLen := rfl
@[simp] theorem Context.ended_dstCap (k : Context) : k.ended.dstCap = k.dstCap := rfl
@[simp] theorem Context.ended_lutIdx (k : Context) : k.ended.lutIdx = k.lutIdx := rfl
@[simp] theorem Context.ended_done (k : Context) : k.ended.done = k.done := rfl
@[simp] theorem Context.ended_accel (k : Context) : k.ended.accel = k.accel := rfl
@[simp] theorem Context.ended_err (k : Context) : k.ended.err = k.err := rfl
@[simp] theorem Context.ended_lenBad (k : Context) : k.ended.lenBad = k.lenBad := rfl
@[simp] theorem Context.ended_capBad (k : Context) : k.ended.capBad = k.capBad := rfl
@[simp] theorem Context.ended_phase (k : Context) : k.ended.phase = k.phase := rfl
@[simp] theorem Context.ended_grp (k : Context) : k.ended.grp = k.grp := rfl
@[simp] theorem Context.ended_pending (k : Context) : k.ended.pending = none := rfl
@[simp] theorem Context.ended_held (k : Context) : k.ended.held = [] := rfl
@[simp] theorem Context.ended_resp (k : Context) : k.ended.resp = .ok := rfl
@[simp] theorem Context.ended_compacted (k : Context) : k.ended.compacted = k.compacted := rfl
@[simp] theorem Context.ended_maskWords (k : Context) : k.ended.maskWords = k.maskWords := rfl
@[simp] theorem Context.ended_busy (k : Context) : k.ended.busy = (k.phase == .run) := by simp [Context.busy]

/-! ### putCtx -/

@[simp] theorem State.putCtx_accelEn (s : State) (c : Nat) (k : Context) : (s.putCtx c k).accelEn = s.accelEn := rfl
@[simp] theorem State.putCtx_base (s : State) (c : Nat) (k : Context) : (s.putCtx c k).base = s.base := rfl
@[simp] theorem State.putCtx_lutValid (s : State) (c : Nat) (k : Context) : (s.putCtx c k).lutValid = s.lutValid := rfl
@[simp] theorem State.putCtx_lut (s : State) (c : Nat) (k : Context) : (s.putCtx c k).lut = s.lut := rfl
@[simp] theorem State.putCtx_ctxs (s : State) (c : Nat) (k : Context) : (s.putCtx c k).ctxs = s.ctxs.set c k := rfl
@[simp] theorem State.putCtx_cur (s : State) (c : Nat) (k : Context) : (s.putCtx c k).cur = s.cur := rfl
@[simp] theorem State.putCtx_inputs (s : State) (c : Nat) (k : Context) : (s.putCtx c k).inputs = s.inputs := rfl
@[simp] theorem State.putCtx_resets (s : State) (c : Nat) (k : Context) : (s.putCtx c k).resets = s.resets := rfl

/-! ### hold -/

@[simp] theorem State.hold_accelEn (s : State) (c : Nat) (k : Context) (e : Event) : (s.hold c k e).accelEn = s.accelEn := rfl
@[simp] theorem State.hold_base (s : State) (c : Nat) (k : Context) (e : Event) : (s.hold c k e).base = s.base := rfl
@[simp] theorem State.hold_lutValid (s : State) (c : Nat) (k : Context) (e : Event) : (s.hold c k e).lutValid = s.lutValid := rfl
@[simp] theorem State.hold_lut (s : State) (c : Nat) (k : Context) (e : Event) : (s.hold c k e).lut = s.lut := rfl
@[simp] theorem State.hold_ctxs (s : State) (c : Nat) (k : Context) (e : Event) : (s.hold c k e).ctxs = s.ctxs.set c { k with held := k.held ++ [e] } := rfl
@[simp] theorem State.hold_cur (s : State) (c : Nat) (k : Context) (e : Event) : (s.hold c k e).cur = s.cur := rfl
@[simp] theorem State.hold_inputs (s : State) (c : Nat) (k : Context) (e : Event) : (s.hold c k e).inputs = s.inputs := rfl
@[simp] theorem State.hold_resets (s : State) (c : Nat) (k : Context) (e : Event) : (s.hold c k e).resets = s.resets := rfl

/-! ### endCommand -/

@[simp] theorem State.endCommand_accelEn (s : State) (c : Nat) (k : Context) : (s.endCommand c k).accelEn = s.accelEn := rfl
@[simp] theorem State.endCommand_base (s : State) (c : Nat) (k : Context) : (s.endCommand c k).base = s.base := rfl
@[simp] theorem State.endCommand_lutValid (s : State) (c : Nat) (k : Context) : (s.endCommand c k).lutValid = s.lutValid := rfl
@[simp] theorem State.endCommand_lut (s : State) (c : Nat) (k : Context) : (s.endCommand c k).lut = s.lut := rfl
@[simp] theorem State.endCommand_ctxs (s : State) (c : Nat) (k : Context) : (s.endCommand c k).ctxs = s.ctxs.set c k.ended := rfl
@[simp] theorem State.endCommand_cur (s : State) (c : Nat) (k : Context) : (s.endCommand c k).cur = s.cur := rfl
@[simp] theorem State.endCommand_inputs (s : State) (c : Nat) (k : Context) : (s.endCommand c k).inputs = k.held ++ s.inputs := rfl
@[simp] theorem State.endCommand_resets (s : State) (c : Nat) (k : Context) : (s.endCommand c k).resets = s.resets := rfl

/-! ### buildStep -/

@[simp] theorem State.buildStep_accelEn (s : State) : s.buildStep.accelEn = s.accelEn := by
  unfold State.buildStep; split <;> rfl
@[simp] theorem State.buildStep_base (s : State) : s.buildStep.base = s.base := by
  unfold State.buildStep; split <;> rfl
@[simp] theorem State.buildStep_ctxs (s : State) : s.buildStep.ctxs = s.ctxs := by
  unfold State.buildStep; split <;> rfl
@[simp] theorem State.buildStep_cur (s : State) : s.buildStep.cur = s.cur := by
  unfold State.buildStep; split <;> rfl
@[simp] theorem State.buildStep_inputs (s : State) : s.buildStep.inputs = s.inputs := by
  unfold State.buildStep; split <;> rfl
@[simp] theorem State.buildStep_resets (s : State) : s.buildStep.resets = s.resets := by
  unfold State.buildStep; split <;> rfl
@[simp] theorem State.buildStep_lutValid (s : State) : s.buildStep.lutValid = true := by
  unfold State.buildStep; split <;> simp_all
theorem State.buildStep_lut (s : State) : s.buildStep.lut = if s.lutValid then s.lut else buildLut := by
  unfold State.buildStep; split <;> rfl
/-- R131: the build step has no effect when the table exists. -/
theorem State.buildStep_of_valid (s : State) (h : s.lutValid = true) : s.buildStep = s := by
  simp [State.buildStep, h]
/-- After the build step of a state whose table, if valid, is the right one, the table is the right one. -/
theorem State.buildStep_lut_eq (s : State) (h : s.lutValid = true → s.lut = buildLut) : s.buildStep.lut = buildLut := by
  rw [State.buildStep_lut]; split <;> simp_all

end Sys2Proof.Machine
end

