-- ==== Sys2Proof/Laws/Stores.lean ====
section
/-! SUPPORT. The stores of the datapath, element by element: the 8-lane values, the permutation table, APPEND, MASK_PACK
and the frame of a group step. -/

namespace Sys2Proof.Machine

open Sys2Proof

@[simp] theorem tabulate_getElem {α : Type} (n : Nat) (f : Nat → α) (i : Nat) (h : i < n) :
    (tabulate n f)[i] = f i := by
  simp [tabulate]

@[simp] theorem tabulate8_getElem {α : Type} (f : Fin 8 → α) (i : Nat) (h : i < 8) : (tabulate8 f)[i] = f ⟨i, h⟩ := by
  have : i = 0 ∨ i = 1 ∨ i = 2 ∨ i = 3 ∨ i = 4 ∨ i = 5 ∨ i = 6 ∨ i = 7 := by omega
  rcases this with rfl | rfl | rfl | rfl | rfl | rfl | rfl | rfl <;> rfl

/-- The lanes in order are all of Fin 8. -/
theorem lanes_eq_finRange : lanes = List.finRange 8 := rfl

/-- The pixel of lane i is pixel 8g + i (R141). -/
theorem pixload_getElem (scan : Pixels) (g : Fin 32) (i : Nat) (h : i < 8) :
    (pixload scan g)[i] = scan[8 * g.val + i] := by
  simp [pixload]

/-- The neighbour of lane i is the sentinel for pixel 0, else the pixel before (R142). -/
theorem neighbor_getElem (scan : Pixels) (g : Fin 32) (i : Nat) (h : i < 8) :
    (neighbor scan g)[i] = if 8 * g.val + i = 0 then sentinel else scan[8 * g.val + i - 1] := by
  simp [neighbor]

/-- One lane of LANE_EQ sets its own bit and no other. -/
theorem one_shiftLeft_getLsbD (j i : Fin 8) : (1#8 <<< j.val).getLsbD i.val = decide (i = j) := by
  revert i j; decide

/-- LANE_EQ's loop over the lanes l, from the mask m: bit i is set when it was, or when lane i is among l and P holds. -/
theorem foldl_setLane_getLsbD (P : Fin 8 → Prop) [DecidablePred P] (l : List (Fin 8)) (m : Mask) (i : Fin 8) :
    (l.foldl (fun (m : Mask) j => if P j then m ||| (1#8 <<< j.val) else m) m).getLsbD i.val =
      (m.getLsbD i.val || (decide (i ∈ l) && decide (P i))) := by
  induction l generalizing m with
  | nil => simp
  | cons j l ih =>
    rw [List.foldl_cons, ih]
    by_cases hp : P j
    · rw [if_pos hp, BitVec.getLsbD_or, one_shiftLeft_getLsbD]
      by_cases hij : i = j
      · subst hij; simp [hp]
      · simp [hij]
    · rw [if_neg hp]
      by_cases hij : i = j
      · subst hij; simp [hp]
      · simp [hij]

/-- R144: bit i of LANE_EQ's result. -/
theorem laneEq_getLsbD (pix nbr : Vector Pixel 8) (i : Fin 8) :
    (laneEq pix nbr).getLsbD i.val = decide (pix[i.val] = nbr[i.val]) := by
  unfold laneEq
  rw [foldl_setLane_getLsbD (fun i => pix[i.val] = nbr[i.val]), lanes_eq_finRange]
  simp

/-- A row is the row of its mask (R151, R130). -/
theorem lutRead_buildLut (m : Mask) : lutRead buildLut m = rowOf m := by
  simp [lutRead, buildLut]

/-- R147: bit i of the mask of group g. -/
theorem dupMask_getLsbD (S : Pixels) (g : Fin 32) (i : Fin 8) :
    (dupMask S g).getLsbD i.val = dupFlag S (8 * g.val + i.val) := by
  have h8 : 8 * g.val + i.val < 256 := by omega
  rw [dupMask, laneEq_getLsbD, pixload_getElem, neighbor_getElem, dupFlag]
  by_cases h0 : 8 * g.val + i.val = 0
  · simp [h0, sentinel, beq_eq_decide]
  · have h7 : 8 * g.val + i.val - 1 < 256 := by omega
    rw [if_neg h0, if_neg h0, Vector.getElem?_eq_getElem h8, Vector.getElem?_eq_getElem h7]
    simp [beq_eq_decide]

/-- R153: the kept count is the number of unset bits. -/
theorem popcnt8_toNat (m : Mask) : (popcnt8 m).toNat = (lanes.filter fun b => !m.getLsbD b.val).length := by
  revert m; decide +kernel

/-- R153: at most 8 lanes are kept. -/
theorem popcnt8_le (m : Mask) : (popcnt8 m).toNat ≤ 8 := by
  rw [popcnt8_toNat]; exact (List.length_filter_le _ _).trans (by decide)

/-- R136 on lane numbers: the first kept entries of a row are the unset bit positions in order. -/
theorem rowOf_take (m : Mask) :
    ((lanes.take (popcnt8 m).toNat).map fun k => ((rowOf m)[k.val]).toNat) =
      (lanes.filter fun b => !m.getLsbD b.val).map fun b => b.val := by
  revert m; decide +kernel

/-- R155: with the built table, the staged slots are the kept pixels of the group in order. -/
theorem staged_eq (pix : Vector Pixel 8) (m : Mask) :
    staged pix (lutRead buildLut m) (popcnt8 m) =
      (lanes.filter fun b => !m.getLsbD b.val).map fun b => pix[b.val] := by
  have h := congrArg (List.map fun n => pix[n]?) (rowOf_take m)
  simp only [List.map_map] at h
  have h2 : ((staged pix (lutRead buildLut m) (popcnt8 m)).map some) =
      (((lanes.filter fun b => !m.getLsbD b.val).map fun b => pix[b.val]).map some) := by
    rw [lutRead_buildLut, staged, List.map_map, List.map_map]
    refine Eq.trans (List.map_congr_left ?_) (h.trans (List.map_congr_left ?_))
    · intro k _
      have : ((rowOf m)[k.val]).toNat < 8 := ((rowOf m)[k.val]).isLt
      simp [permuteSlot, this]
    · intro b _
      simp
  exact List.map_injective_iff.mpr (Option.some_injective _) h2

/-- The staged slots are as many as the kept lanes (R162). -/
theorem staged_length (pix : Vector Pixel 8) (row : Row) (m : Mask) :
    (staged pix row (popcnt8 m)).length = (popcnt8 m).toNat := by
  have := popcnt8_le m
  simp [staged, this]

/-- R162: APPEND writes the staged values from index n on and no other element. -/
theorem appendOut_getElem (vs : List Pixel) (out : Pixels) (n i : Nat) (h : i < 256) :
    (appendOut out n vs)[i] = if n ≤ i ∧ i < n + vs.length then vs.getD (i - n) 0#32 else out[i] := by
  induction vs generalizing out n with
  | nil => simp [appendOut]
  | cons v vs ih =>
    rw [appendOut, ih, Vector.getElem_setIfInBounds]
    by_cases hn : n = i
    · subst hn; simp
    · by_cases h1 : n + 1 ≤ i ∧ i < n + 1 + vs.length
      · have h2 : n ≤ i ∧ i < n + (vs.length + 1) := by omega
        have h3 : i - n = i - (n + 1) + 1 := by omega
        simp [h1, h2, h3]
      · have h2 : ¬ (n ≤ i ∧ i < n + (vs.length + 1)) := by omega
        rw [if_neg h1, if_neg hn, if_neg (by simpa using h2)]

/-- R164 on bytes: MASK_PACK replaces byte g mod 8 of word g / 8. -/
theorem maskPack_getElem (rle : Blocks) (g : Fin 32) (mask : Mask) (n j : Nat) (hn : n < 4) (hj : j < 8) :
    ((maskPack rle g mask)[n])[j] = if n = g.val / 8 ∧ j = g.val % 8 then mask else (rle[n])[j] := by
  have h8 : 8 * g.val / 64 = g.val / 8 := by omega
  simp only [maskPack, Vector.getElem_set]
  by_cases h1 : 8 * g.val / 64 = n
  · subst h1
    by_cases h2 : g.val % 8 = j
    · simp [h2, h8]
    · have : ¬ j = g.val % 8 := fun h => h2 h.symm
      simp [h2, this]
  · have : ¬ (n = g.val / 8 ∧ j = g.val % 8) := by omega
    simp [h1, this]

/-- Bit 8j + i of the 64-bit word is bit i of its byte j (R64, R164). -/
theorem blockWord_getLsbD (b : BlockBytes) (j i : Nat) (hj : j < 8) (hi : i < 8) :
    (blockWord b).getLsbD (8 * j + i) = (b[j]).getLsbD i := by
  have : j = 0 ∨ j = 1 ∨ j = 2 ∨ j = 3 ∨ j = 4 ∨ j = 5 ∨ j = 6 ∨ j = 7 := by omega
  rcases this with rfl | rfl | rfl | rfl | rfl | rfl | rfl | rfl <;>
    simp only [blockWord, BitVec.getLsbD_append] <;> (repeat' split) <;> first | omega | (congr 1; try omega)

end Sys2Proof.Machine
end

