-- ==== Sys2Proof/Laws/Reference.lean ====
section
/-! SUPPORT. The scalar scan (R181) after any number of pixels, in closed form, and what one group adds to it. -/

namespace Sys2Proof.Machine

open Sys2Proof

/-- The kept pixels among the pixel numbers in l. -/
def keptOf (S : Pixels) (l : List Nat) : List Pixel :=
  l.filterMap fun p => if dupFlag S p then none else S[p]?

theorem keptOf_append (S : Pixels) (l m : List Nat) : keptOf S (l ++ m) = keptOf S l ++ keptOf S m := by
  simp [keptOf, List.filterMap_append]

theorem scalarPrefix_succ (S : Pixels) (n : Nat) : scalarPrefix S (n + 1) = scalarStep S (scalarPrefix S n) n := by
  simp [scalarPrefix, List.range_succ]

theorem scalarStep_values (S : Pixels) (e : Encoding) (p : Nat) :
    (scalarStep S e p).values = e.values ++ keptOf S [p] := by
  unfold scalarStep keptOf
  by_cases h : dupFlag S p
  · simp [h]
  · cases hp : S[p]? <;> simp [h, hp]

theorem scalarStep_count (S : Pixels) (e : Encoding) (p : Nat) :
    (scalarStep S e p).count = e.count + (keptOf S [p]).length := by
  unfold scalarStep keptOf
  by_cases h : dupFlag S p
  · simp [h]
  · cases hp : S[p]? <;> simp [h, hp]

/-- R181: the values after n pixels are the kept ones among them, in order. -/
theorem scalarPrefix_values (S : Pixels) (n : Nat) : (scalarPrefix S n).values = keptOf S (List.range n) := by
  induction n with
  | zero => rfl
  | succ n ih => rw [scalarPrefix_succ, scalarStep_values, ih, List.range_succ, keptOf_append]

/-- R181: the count after n pixels is the number of values. -/
theorem scalarPrefix_count (S : Pixels) (n : Nat) : (scalarPrefix S n).count = (keptOf S (List.range n)).length := by
  induction n with
  | zero => rfl
  | succ n ih => rw [scalarPrefix_succ, scalarStep_count, ih, List.range_succ, keptOf_append, List.length_append]

theorem one_shiftLeft_getLsbD64 (j i : Nat) (hj : j < 64) (hi : i < 64) :
    (1#64 <<< j).getLsbD i = decide (i = j) := by
  rw [BitVec.getLsbD_shiftLeft]
  by_cases h : i < j
  · have : i ≠ j := by omega
    simp [h, this]
  · by_cases h2 : i = j
    · subst h2; simp [hi]
    · have : i - j ≠ 0 := by omega
      simp [h2, BitVec.getLsbD_one, this]

/-- Setting the bit of pixel q sets that bit and no other. -/
theorem maskBit_setMaskBit (M : MaskWords) (q p : Nat) (hq : q < 256) :
    maskBit (setMaskBit M q) p = (maskBit M p || decide (p = q)) := by
  have hq4 : q / 64 < 4 := by omega
  unfold setMaskBit maskBit
  rw [Vector.getElem?_eq_getElem hq4]
  by_cases hp4 : p / 64 < 4
  · rw [Vector.getElem?_eq_getElem hp4]
    simp only [Vector.getElem?_eq_getElem hp4]
    rw [Vector.getElem_setIfInBounds]
    by_cases he : q / 64 = p / 64
    · have h64 : (p % 64 = q % 64) ↔ p = q := by omega
      rw [if_pos he, BitVec.getLsbD_or, one_shiftLeft_getLsbD64 _ _ (by omega) (by omega)]
      simp [he, h64]
    · have : p ≠ q := fun h => he (by rw [h])
      simp [he, this]
  · have : p ≠ q := by omega
    simp [hp4, this]

theorem maskBit_scalarStep (S : Pixels) (e : Encoding) (q p : Nat) (hq : q < 256) :
    maskBit (scalarStep S e q).mask p = (maskBit e.mask p || (decide (p = q) && dupFlag S q)) := by
  unfold scalarStep
  by_cases h : dupFlag S q
  · simp [h, maskBit_setMaskBit _ _ _ hq]
  · cases hq2 : S[q]? <;> simp [h]

/-- R181: after n pixels, the mask's bit p is the flag of pixel p for p < n and 0 beyond. -/
theorem scalarPrefix_maskBit (S : Pixels) (n p : Nat) (hn : n ≤ 256) :
    maskBit (scalarPrefix S n).mask p = (decide (p < n) && dupFlag S p) := by
  induction n with
  | zero =>
    by_cases h : p / 64 < 4
    · simp [scalarPrefix, maskBit, h]
    · simp [scalarPrefix, maskBit, h]
  | succ n ih =>
    rw [scalarPrefix_succ, maskBit_scalarStep _ _ _ _ (by omega), ih (by omega)]
    by_cases h : p = n
    · subst h; simp
    · have : (p < n + 1) ↔ (p < n) := by omega
      simp [h, this]

/-- Two RleMaskBlocks with the same 256 flags are equal (R167). -/
theorem maskWords_ext (M N : MaskWords) (h : ∀ p, p < 256 → maskBit M p = maskBit N p) : M = N := by
  refine Vector.ext fun n hn => BitVec.eq_of_getLsbD_eq fun i hi => ?_
  have := h (64 * n + i) (by omega)
  have hd : (64 * n + i) / 64 = n := by omega
  have hm : (64 * n + i) % 64 = i := by omega
  simpa [maskBit, hd, hm, hn] using this

/-- R183: the decoder's loop body. -/
theorem decodeFrom_succ (M : MaskWords) (n p : Nat) (prev : Pixel) (C : List Pixel) :
    decodeFrom M (n + 1) p prev C =
      if maskBit M p then (decodeFrom M n (p + 1) prev C).map (prev :: ·)
      else
        match C with
        | [] => none
        | v :: vs => (decodeFrom M n (p + 1) v vs).map (v :: ·) := rfl

/-- The pixel numbers of group g, after those of the groups before it. -/
theorem range_group (g : Nat) : List.range (8 * (g + 1)) = List.range (8 * g) ++ (lanes.map fun i => 8 * g + i.val) := by
  have : 8 * (g + 1) = 8 * g + 8 := by omega
  rw [this, List.range_add]
  rfl

/-- R155, R166: what group g adds to the kept pixels is what its group step stages. -/
theorem keptOf_group (S : Pixels) (g : Fin 32) :
    keptOf S (lanes.map fun i => 8 * g.val + i.val) =
      staged (pixload S g) (lutRead buildLut (dupMask S g)) (popcnt8 (dupMask S g)) := by
  rw [staged_eq]
  unfold keptOf
  rw [List.filterMap_map]
  generalize lanes = l
  induction l with
  | nil => rfl
  | cons i l ih =>
    have h8 : 8 * g.val + i.val < 256 := by omega
    rw [List.filterMap_cons, List.filter_cons, dupMask_getLsbD, ih]
    by_cases h : dupFlag S (8 * g.val + i.val)
    · rw [Function.comp_apply, if_pos h, if_neg (by simp [h])]
    · rw [Function.comp_apply, if_neg h, if_pos (by simp [h]), Vector.getElem?_eq_getElem h8, List.map_cons,
        pixload_getElem]

end Sys2Proof.Machine
end

