-- ==== Sys2Proof/Laws/Run.lean ====
section
/-! SUPPORT. The group step and the run: what one step changes and leaves, what n steps have produced, and what the
whole run of an ENCODE leaves (R161 to R169). -/

namespace Sys2Proof.Machine

open Sys2Proof

/-! ### The frame of a group step and of a run -/

@[simp] theorem Context.groupStep_scan (lut : Table) (k : Context) : (k.groupStep lut).scan = k.scan := rfl
@[simp] theorem Context.groupStep_srcLen (lut : Table) (k : Context) : (k.groupStep lut).srcLen = k.srcLen := rfl
@[simp] theorem Context.groupStep_dstCap (lut : Table) (k : Context) : (k.groupStep lut).dstCap = k.dstCap := rfl
@[simp] theorem Context.groupStep_lutIdx (lut : Table) (k : Context) : (k.groupStep lut).lutIdx = k.lutIdx := rfl
@[simp] theorem Context.groupStep_done (lut : Table) (k : Context) : (k.groupStep lut).done = k.done := rfl
@[simp] theorem Context.groupStep_accel (lut : Table) (k : Context) : (k.groupStep lut).accel = k.accel := rfl
@[simp] theorem Context.groupStep_err (lut : Table) (k : Context) : (k.groupStep lut).err = k.err := rfl
@[simp] theorem Context.groupStep_lenBad (lut : Table) (k : Context) : (k.groupStep lut).lenBad = k.lenBad := rfl
@[simp] theorem Context.groupStep_capBad (lut : Table) (k : Context) : (k.groupStep lut).capBad = k.capBad := rfl
@[simp] theorem Context.groupStep_phase (lut : Table) (k : Context) : (k.groupStep lut).phase = k.phase := rfl
@[simp] theorem Context.groupStep_pending (lut : Table) (k : Context) : (k.groupStep lut).pending = k.pending := rfl
@[simp] theorem Context.groupStep_held (lut : Table) (k : Context) : (k.groupStep lut).held = k.held := rfl
@[simp] theorem Context.groupStep_resp (lut : Table) (k : Context) : (k.groupStep lut).resp = k.resp := rfl
@[simp] theorem Context.groupSteps_scan (lut : Table) (n : Nat) (k : Context) :
    (Context.groupSteps lut n k).scan = k.scan := by
  induction n generalizing k with
  | zero => rfl
  | succ n ih => rw [Context.groupSteps, ih, Context.groupStep_scan]
@[simp] theorem Context.groupSteps_srcLen (lut : Table) (n : Nat) (k : Context) :
    (Context.groupSteps lut n k).srcLen = k.srcLen := by
  induction n generalizing k with
  | zero => rfl
  | succ n ih => rw [Context.groupSteps, ih, Context.groupStep_srcLen]
@[simp] theorem Context.groupSteps_dstCap (lut : Table) (n : Nat) (k : Context) :
    (Context.groupSteps lut n k).dstCap = k.dstCap := by
  induction n generalizing k with
  | zero => rfl
  | succ n ih => rw [Context.groupSteps, ih, Context.groupStep_dstCap]
@[simp] theorem Context.groupSteps_lutIdx (lut : Table) (n : Nat) (k : Context) :
    (Context.groupSteps lut n k).lutIdx = k.lutIdx := by
  induction n generalizing k with
  | zero => rfl
  | succ n ih => rw [Context.groupSteps, ih, Context.groupStep_lutIdx]
@[simp] theorem Context.groupSteps_done (lut : Table) (n : Nat) (k : Context) :
    (Context.groupSteps lut n k).done = k.done := by
  induction n generalizing k with
  | zero => rfl
  | succ n ih => rw [Context.groupSteps, ih, Context.groupStep_done]
@[simp] theorem Context.groupSteps_accel (lut : Table) (n : Nat) (k : Context) :
    (Context.groupSteps lut n k).accel = k.accel := by
  induction n generalizing k with
  | zero => rfl
  | succ n ih => rw [Context.groupSteps, ih, Context.groupStep_accel]
@[simp] theorem Context.groupSteps_err (lut : Table) (n : Nat) (k : Context) :
    (Context.groupSteps lut n k).err = k.err := by
  induction n generalizing k with
  | zero => rfl
  | succ n ih => rw [Context.groupSteps, ih, Context.groupStep_err]
@[simp] theorem Context.groupSteps_lenBad (lut : Table) (n : Nat) (k : Context) :
    (Context.groupSteps lut n k).lenBad = k.lenBad := by
  induction n generalizing k with
  | zero => rfl
  | succ n ih => rw [Context.groupSteps, ih, Context.groupStep_lenBad]
@[simp] theorem Context.groupSteps_capBad (lut : Table) (n : Nat) (k : Context) :
    (Context.groupSteps lut n k).capBad = k.capBad := by
  induction n generalizing k with
  | zero => rfl
  | succ n ih => rw [Context.groupSteps, ih, Context.groupStep_capBad]
@[simp] theorem Context.groupSteps_phase (lut : Table) (n : Nat) (k : Context) :
    (Context.groupSteps lut n k).phase = k.phase := by
  induction n generalizing k with
  | zero => rfl
  | succ n ih => rw [Context.groupSteps, ih, Context.groupStep_phase]
@[simp] theorem Context.groupSteps_pending (lut : Table) (n : Nat) (k : Context) :
    (Context.groupSteps lut n k).pending = k.pending := by
  induction n generalizing k with
  | zero => rfl
  | succ n ih => rw [Context.groupSteps, ih, Context.groupStep_pending]
@[simp] theorem Context.groupSteps_held (lut : Table) (n : Nat) (k : Context) :
    (Context.groupSteps lut n k).held = k.held := by
  induction n generalizing k with
  | zero => rfl
  | succ n ih => rw [Context.groupSteps, ih, Context.groupStep_held]
@[simp] theorem Context.groupSteps_resp (lut : Table) (n : Nat) (k : Context) :
    (Context.groupSteps lut n k).resp = k.resp := by
  induction n generalizing k with
  | zero => rfl
  | succ n ih => rw [Context.groupSteps, ih, Context.groupStep_resp]

/-- A group step while GRP = g < 32 is the step of group g (R161). -/
theorem Context.groupStep_eq (lut : Table) (k : Context) (g : Fin 32) (h : k.grp.toNat = g.val) :
    k.groupStep lut = k.groupStepAt lut g := by
  have hl : k.grp.toNat < 32 := by omega
  have hg : (⟨k.grp.toNat, hl⟩ : Fin 32) = g := Fin.ext h
  simp only [Context.groupStep, dif_pos hl, hg]
  rfl

/-- R165: the group counter advances by 1. -/
theorem Context.groupStep_grp (lut : Table) (k : Context) (h : k.grp.toNat < 32) :
    (k.groupStep lut).grp.toNat = k.grp.toNat + 1 := by
  rw [Context.groupStep_eq lut k ⟨k.grp.toNat, h⟩ rfl]
  simp only [Context.groupStepAt, BitVec.toNat_add, BitVec.toNat_ofNat]
  omega

/-- R163: the count advances by the kept count, without wrapping. -/
theorem Context.groupStep_count (lut : Table) (k : Context) (g : Fin 32) (h : k.grp.toNat = g.val)
    (hc : k.count.toNat ≤ 8 * g.val) :
    (k.groupStep lut).count.toNat = k.count.toNat + (popcnt8 (dupMask k.scan g)).toNat := by
  have h8 := popcnt8_le (dupMask k.scan g)
  rw [Context.groupStep_eq lut k g h]
  change (countAdd k.count (popcnt8 (dupMask k.scan g))).toNat = _
  simp only [countAdd, BitVec.toNat_add, BitVec.toNat_setWidth]
  omega

/-- R162. -/
theorem Context.groupStep_out (lut : Table) (k : Context) (g : Fin 32) (h : k.grp.toNat = g.val) :
    (k.groupStep lut).out = appendOut k.out k.count.toNat
      (staged (pixload k.scan g) (lutRead lut (dupMask k.scan g)) (popcnt8 (dupMask k.scan g))) := by
  rw [Context.groupStep_eq lut k g h]; rfl

/-- R164. -/
theorem Context.groupStep_rle (lut : Table) (k : Context) (g : Fin 32) (h : k.grp.toNat = g.val) :
    (k.groupStep lut).rle = maskPack k.rle g (dupMask k.scan g) := by
  rw [Context.groupStep_eq lut k g h]; rfl

/-- R168: the bound of a run is kept by a group step. -/
theorem Context.groupStep_bound (lut : Table) (k : Context) (h : k.grp.toNat < 32)
    (hc : k.count.toNat ≤ 8 * k.grp.toNat) :
    (k.groupStep lut).count.toNat ≤ 8 * (k.groupStep lut).grp.toNat := by
  rw [Context.groupStep_grp lut k h, Context.groupStep_count lut k ⟨k.grp.toNat, h⟩ rfl hc]
  have := popcnt8_le (dupMask k.scan ⟨k.grp.toNat, h⟩)
  omega

/-! ### What a run has produced -/

/-- After n group steps: OUT[0..COUNT-1] are the kept pixels of the first n groups, and their flags are in RLE. -/
structure Context.DoneUpTo (k : Context) (n : Nat) : Prop where
  compacted : k.compacted = keptOf k.scan (List.range (8 * n))
  count : k.count.toNat = (keptOf k.scan (List.range (8 * n))).length
  flags : ∀ p, p < 8 * n → maskBit k.maskWords p = dupFlag k.scan p

theorem keptOf_length_le (S : Pixels) (n : Nat) : (keptOf S (List.range n)).length ≤ n := by
  simpa [keptOf] using List.length_filterMap_le (fun p => if dupFlag S p then none else S[p]?) (List.range n)

/-- R162: the first elements of OUT after APPEND are those before it, then the staged values. -/
theorem appendOut_take (vs : List Pixel) (out : Pixels) (n : Nat) (h : n + vs.length ≤ 256) :
    (appendOut out n vs).toList.take (n + vs.length) = out.toList.take n ++ vs := by
  refine List.ext_getElem (by simp; omega) fun i h1 h2 => ?_
  have hi : i < n + vs.length := by simp at h1; omega
  rw [List.getElem_take, Vector.getElem_toList, appendOut_getElem]
  by_cases hn : n ≤ i
  · rw [if_pos ⟨hn, hi⟩, List.getElem_append_right (by simp; omega)]
    have h3 : i - n < vs.length := by omega
    have h4 : min n 256 = n := by omega
    simp [h3, h4]
  · rw [if_neg (by omega), List.getElem_append_left (by simp; omega)]
    simp

/-- R167: the flag of pixel p in a context's RLE is bit p mod 8 of byte (p / 8) mod 8 of word p / 64. -/
theorem Context.maskBit_eq (k : Context) (p : Nat) (h : p < 256) :
    maskBit k.maskWords p = ((k.rle[p / 64])[p % 64 / 8]).getLsbD (p % 8) := by
  have h4 : p / 64 < 4 := by omega
  have h8 : p % 64 = 8 * (p % 64 / 8) + p % 8 := by omega
  rw [maskBit, Context.maskWords, Vector.getElem?_eq_getElem h4, Vector.getElem_map]
  change (blockWord k.rle[p / 64]).getLsbD (p % 64) = _
  rw [congrArg (BitVec.getLsbD _) h8, blockWord_getLsbD _ _ _ (by omega) (by omega)]

/-- R161 to R167: one group step with the built table does one more group. -/
theorem Context.groupStep_doneUpTo (k : Context) (g : Fin 32) (h : k.grp.toNat = g.val) (hd : k.DoneUpTo g.val) :
    (k.groupStep buildLut).DoneUpTo (g.val + 1) := by
  have hle := keptOf_length_le k.scan (8 * g.val)
  have hc : k.count.toNat ≤ 8 * g.val := by rw [hd.count]; exact hle
  have h8 := popcnt8_le (dupMask k.scan g)
  have hlen := staged_length (pixload k.scan g) (lutRead buildLut (dupMask k.scan g)) (dupMask k.scan g)
  refine ⟨?_, ?_, ?_⟩
  · rw [Context.compacted, Context.groupStep_count _ _ g h hc, Context.groupStep_out _ _ g h, Context.groupStep_scan,
      range_group, keptOf_append, keptOf_group, ← hd.compacted, Context.compacted, ← hlen,
      appendOut_take _ _ _ (by omega)]
  · rw [Context.groupStep_count _ _ g h hc, Context.groupStep_scan, range_group, keptOf_append, keptOf_group,
      List.length_append, hlen, hd.count]
  · intro p hp
    have h256 : p < 256 := by omega
    rw [Context.maskBit_eq _ _ h256, Context.groupStep_rle _ _ g h, Context.groupStep_scan,
      maskPack_getElem _ _ _ _ _ (by omega) (by omega)]
    by_cases hg : p / 8 = g.val
    · rw [if_pos (by omega)]
      have := dupMask_getLsbD k.scan g ⟨p % 8, by omega⟩
      have hp8 : 8 * g.val + p % 8 = p := by omega
      rw [this, hp8]
    · rw [if_neg (by omega), ← Context.maskBit_eq _ _ h256]
      exact hd.flags p (by omega)

/-- R116: the start of a run has done no group. -/
theorem Context.startRun_doneUpTo (k : Context) : k.startRun.DoneUpTo 0 := by
  refine ⟨rfl, rfl, fun p hp => ?_⟩
  omega

/-- n group steps advance GRP by n. -/
theorem Context.groupSteps_grp (lut : Table) (n : Nat) (k : Context) (h : k.grp.toNat + n ≤ 32) :
    (Context.groupSteps lut n k).grp.toNat = k.grp.toNat + n := by
  induction n generalizing k with
  | zero => rfl
  | succ n ih =>
    have hg := Context.groupStep_grp lut k (by omega)
    rw [Context.groupSteps, ih _ (by omega), hg]
    omega

/-- n group steps with the built table do n more groups. -/
theorem Context.groupSteps_doneUpTo (n : Nat) (k : Context) (h : k.grp.toNat + n ≤ 32)
    (hd : k.DoneUpTo k.grp.toNat) :
    (Context.groupSteps buildLut n k).DoneUpTo (k.grp.toNat + n) := by
  induction n generalizing k with
  | zero => exact hd
  | succ n ih =>
    have hg := Context.groupStep_grp buildLut k (by omega)
    have hs := Context.groupStep_doneUpTo k ⟨k.grp.toNat, by omega⟩ rfl hd
    have := ih (k.groupStep buildLut) (by omega) (by rw [hg]; exact hs)
    rw [Context.groupSteps]
    rwa [hg, show k.grp.toNat + 1 + n = k.grp.toNat + (n + 1) by omega] at this

/-- n group steps write OUT, COUNT, RLE and GRP and nothing else. -/
theorem Context.groupSteps_frame (lut : Table) (n : Nat) (k : Context) :
    Context.groupSteps lut n k =
      { k with
        out := (Context.groupSteps lut n k).out
        count := (Context.groupSteps lut n k).count
        rle := (Context.groupSteps lut n k).rle
        grp := (Context.groupSteps lut n k).grp } := by
  induction n generalizing k with
  | zero => rfl
  | succ n ih => exact ih (k.groupStep lut)

/-- A whole run is the completion of 32 group steps (R116, R169); with the number of steps as a variable, so that no proof
unfolds 32 of them. -/
theorem Context.runAll_eq (lut : Table) (k : Context) :
    ∃ n, n = 32 ∧ k.runAll lut = (Context.groupSteps lut n k.startRun).completeRun := by
  refine ⟨32, rfl, ?_⟩
  unfold Context.runAll
  generalize 32 = n
  rw [Context.groupSteps_frame]
  rfl

/-- R169: completion leaves what the group steps made. -/
theorem Context.completeRun_doneUpTo (k : Context) (n : Nat) (h : k.DoneUpTo n) : k.completeRun.DoneUpTo n :=
  ⟨h.compacted, h.count, h.flags⟩

/-- R116, R165: the 32 group steps of a run do all 32 groups. -/
theorem Context.runAll_doneUpTo (k : Context) : (k.runAll buildLut).DoneUpTo 32 := by
  obtain ⟨n, hn, h⟩ := k.runAll_eq buildLut
  have hd := Context.groupSteps_doneUpTo n k.startRun (by rw [hn]; simp) k.startRun_doneUpTo
  have h0 : k.startRun.grp.toNat + n = n := by simp
  rw [h0] at hd
  rw [h, ← hn]
  exact Context.completeRun_doneUpTo _ _ hd

/-- R162, R120: a group step writes OUT at no index from its new COUNT on. -/
theorem Context.groupStep_out_tail (lut : Table) (k : Context) (h : k.grp.toNat < 32)
    (hc : k.count.toNat ≤ 8 * k.grp.toNat) (i : Nat) (hi : i < 256) (ht : (k.groupStep lut).count.toNat ≤ i) :
    (k.groupStep lut).out[i] = k.out[i] := by
  have hk := Context.groupStep_count lut k ⟨k.grp.toNat, h⟩ rfl hc
  have hl := staged_length (pixload k.scan ⟨k.grp.toNat, h⟩) (lutRead lut (dupMask k.scan ⟨k.grp.toNat, h⟩))
    (dupMask k.scan ⟨k.grp.toNat, h⟩)
  simp only [Context.groupStep_out lut k ⟨k.grp.toNat, h⟩ rfl]
  rw [appendOut_getElem, if_neg (by omega)]

theorem Context.groupStep_count_le (lut : Table) (k : Context) (h : k.grp.toNat < 32)
    (hc : k.count.toNat ≤ 8 * k.grp.toNat) : k.count.toNat ≤ (k.groupStep lut).count.toNat := by
  rw [Context.groupStep_count lut k ⟨k.grp.toNat, h⟩ rfl hc]
  omega

/-- R120 over n group steps. -/
theorem Context.groupSteps_out_tail (lut : Table) (n : Nat) (k : Context) (h : k.grp.toNat + n ≤ 32)
    (hc : k.count.toNat ≤ 8 * k.grp.toNat) (i : Nat) (hi : i < 256)
    (ht : (Context.groupSteps lut n k).count.toNat ≤ i) :
    k.count.toNat ≤ (Context.groupSteps lut n k).count.toNat ∧ (Context.groupSteps lut n k).out[i] = k.out[i] := by
  induction n generalizing k with
  | zero => exact ⟨Nat.le_refl _, rfl⟩
  | succ n ih =>
    have hg := Context.groupStep_grp lut k (by omega)
    have hb := Context.groupStep_bound lut k (by omega) hc
    rw [Context.groupSteps] at ht
    obtain ⟨h1, h2⟩ := ih (k.groupStep lut) (by omega) hb ht
    have h3 := Context.groupStep_count_le lut k (by omega) hc
    simp only [Context.groupSteps]
    exact ⟨h3.trans h1, h2.trans (Context.groupStep_out_tail lut k (by omega) hc i hi (h1.trans ht))⟩

/-- R120: a run leaves OUT[COUNT..255] as it was. -/
theorem Context.runAll_out_tail (lut : Table) (k : Context) (i : Fin 256) :
    (k.runAll lut).count.toNat ≤ i.val → (k.runAll lut).out[i.val] = k.out[i.val] := by
  intro ht
  obtain ⟨n, hn, h⟩ := k.runAll_eq lut
  rw [h] at ht
  simp only [h]
  exact (Context.groupSteps_out_tail lut n k.startRun (by rw [hn]; simp) (by simp) i.val i.isLt ht).2

/-- R165: a run ends with GRP = 32. -/
theorem Context.runAll_grp (lut : Table) (k : Context) : (k.runAll lut).grp = 32#6 := by
  obtain ⟨n, hn, h⟩ := k.runAll_eq lut
  have hg := Context.groupSteps_grp lut n k.startRun (by rw [hn]; simp)
  refine BitVec.eq_of_toNat_eq ?_
  rw [h, Context.completeRun_grp, hg, hn]
  simp

@[simp] theorem Context.runAll_scan (lut : Table) (k : Context) : (k.runAll lut).scan = k.scan := by
  unfold Context.runAll; rfl
@[simp] theorem Context.runAll_srcLen (lut : Table) (k : Context) : (k.runAll lut).srcLen = k.srcLen := by
  unfold Context.runAll; rfl
@[simp] theorem Context.runAll_dstCap (lut : Table) (k : Context) : (k.runAll lut).dstCap = k.dstCap := by
  unfold Context.runAll; rfl
@[simp] theorem Context.runAll_lutIdx (lut : Table) (k : Context) : (k.runAll lut).lutIdx = k.lutIdx := by
  unfold Context.runAll; rfl
@[simp] theorem Context.runAll_err (lut : Table) (k : Context) : (k.runAll lut).err = k.err := by
  unfold Context.runAll; rfl
@[simp] theorem Context.runAll_lenBad (lut : Table) (k : Context) : (k.runAll lut).lenBad = k.lenBad := by
  unfold Context.runAll; rfl
@[simp] theorem Context.runAll_capBad (lut : Table) (k : Context) : (k.runAll lut).capBad = k.capBad := by
  unfold Context.runAll; rfl
@[simp] theorem Context.runAll_pending (lut : Table) (k : Context) : (k.runAll lut).pending = k.pending := by
  unfold Context.runAll; rfl
@[simp] theorem Context.runAll_held (lut : Table) (k : Context) : (k.runAll lut).held = k.held := by
  unfold Context.runAll; rfl
@[simp] theorem Context.runAll_resp (lut : Table) (k : Context) : (k.runAll lut).resp = k.resp := by
  unfold Context.runAll; rfl
@[simp] theorem Context.runAll_phase (lut : Table) (k : Context) : (k.runAll lut).phase = .idle := by
  unfold Context.runAll; rfl
@[simp] theorem Context.runAll_done (lut : Table) (k : Context) : (k.runAll lut).done = true := by
  unfold Context.runAll; rfl
@[simp] theorem Context.runAll_accel (lut : Table) (k : Context) : (k.runAll lut).accel = true := by
  unfold Context.runAll; rfl

/-- A run's result as the scalar scan's (R182). -/
theorem Context.runAll_scalar (k : Context) :
    (k.runAll buildLut).compacted = (scalarEncode k.scan).values ∧
    (k.runAll buildLut).count.toNat = (scalarEncode k.scan).count ∧
    (k.runAll buildLut).maskWords = (scalarEncode k.scan).mask := by
  have h := k.runAll_doneUpTo
  have hn : 8 * 32 = 256 := rfl
  rw [scalarEncode]
  refine ⟨?_, ?_, maskWords_ext _ _ fun p hp => ?_⟩
  · rw [h.compacted, Context.runAll_scan, hn, scalarPrefix_values]
  · rw [h.count, Context.runAll_scan, hn, scalarPrefix_count]
  · rw [h.flags p (by omega), Context.runAll_scan, scalarPrefix_maskBit _ _ _ (Nat.le_refl _), decide_eq_true hp,
      Bool.true_and]

end Sys2Proof.Machine
end

