-- ==== Sys2Proof/Laws/Step.lean ====
section
/-! SUPPORT. What a step can do, said once: the inversion lemma of the step (`step_move`), the outcomes of the two commands,
and what the shared operations leave unchanged. -/

namespace Sys2Proof.Machine

open Sys2Proof

/-! ### One context of the state -/

/-- After context c is replaced, it is the new one. -/
theorem set_getElem?_self {k : Context} {l : List Context} {c : Nat} (h : l[c]? = some k) (k' : Context) :
    (l.set c k')[c]? = some k' := by
  obtain ⟨hl, _⟩ := List.getElem?_eq_some_iff.mp h
  simp [hl]

/-- After context c is replaced, every other is as before. -/
theorem set_getElem?_other (l : List Context) {c d : Nat} (k' : Context) (h : d ≠ c) : (l.set c k')[d]? = l[d]? :=
  List.getElem?_set_ne (fun e => h e.symm)

theorem SameButContext.refl (c : Nat) (s : State) : SameButContext c s s :=
  ⟨⟨rfl, rfl, rfl, rfl, fun _ _ => rfl⟩, rfl, rfl⟩

/-- Replacing context c leaves everything else. -/
theorem putCtx_same (s : State) (c : Nat) (k : Context) : SameButContext c s (s.putCtx c k) :=
  ⟨⟨rfl, rfl, rfl, by simp, fun _ h => set_getElem?_other _ _ h⟩, rfl, rfl⟩

/-- The end of a command of context c leaves everything else. -/
theorem endCommand_same (s : State) (c : Nat) (k : Context) : SameButContext c s (s.endCommand c k) :=
  ⟨⟨rfl, rfl, rfl, by simp, fun _ h => set_getElem?_other _ _ h⟩, rfl, rfl⟩

/-- Building the table and then ending a command of context c changes nothing else than these. -/
theorem buildStep_endCommand_same (s : State) (c : Nat) (k : Context) :
    SameOutside c s (s.buildStep.endCommand c k) := by
  refine ⟨?_, ?_, ?_, ?_, fun d h => ?_⟩
  · simp
  · simp
  · simp
  · simp
  · simp only [State.endCommand_ctxs, State.buildStep_ctxs]
    exact set_getElem?_other _ _ h

/-- The content of context c after its command ended with the content k. -/
theorem endCommand_ctx {s : State} {c : Nat} {k₀ : Context} (h : s.ctxs[c]? = some k₀) (k : Context) :
    (s.endCommand c k).ctxs[c]? = some k.ended :=
  set_getElem?_self h _

/-- The same when the builder's step came before. -/
theorem buildStep_endCommand_ctx {s : State} {c : Nat} {k₀ : Context} (h : s.ctxs[c]? = some k₀) (k : Context) :
    (s.buildStep.endCommand c k).ctxs[c]? = some k.ended :=
  endCommand_ctx (by simpa using h) k

/-! ### The outcomes of the commands -/

/-- LUTBUILD on the selected context, when that is in no command (R111). -/
theorem exec_lutbuild {s : State} {k : Context} (h : s.Selected k) :
    exec .lutbuild s = .next (s.lutbuildOn s.cur k) := by
  have hi := h.idle
  simp [exec, execLutbuild, State.onIdle, h.ctx, hi]

/-- ENCODE on the selected context, when that is in no command (R112). -/
theorem exec_encode {s : State} {k : Context} (h : s.Selected k) : exec .encode s = .next (s.encodeOn s.cur k) := by
  have hi := h.idle
  simp [exec, execEncode, State.onIdle, h.ctx, hi]

/-- The two ways of LUTBUILD (R111). -/
theorem lutbuildOn_disabled {s : State} (c : Nat) (k : Context) (ha : s.accelEn = false) :
    s.lutbuildOn c k = s.endCommand c { k.accept with done := true } := by
  simp [State.lutbuildOn, ha]

theorem lutbuildOn_enabled {s : State} (c : Nat) (k : Context) (ha : s.accelEn = true) :
    s.lutbuildOn c k = s.buildStep.endCommand c { k.accept with done := true } := by
  simp [State.lutbuildOn, ha]

/-- The three ways of ENCODE (R113, R114, R116). -/
theorem encodeOn_rejects {s : State} {k : Context} (c : Nat) (h : k.rejects = true) :
    s.encodeOn c k = s.endCommand c k.rejected := by
  simp [State.encodeOn, h]

theorem encodeOn_disabled {s : State} {k : Context} (c : Nat) (h : k.rejects = false) (ha : s.accelEn = false) :
    s.encodeOn c k = s.endCommand c { k.accept with done := true } := by
  simp [State.encodeOn, h, ha]

theorem encodeOn_runs {s : State} {k : Context} (c : Nat) (h : k.rejects = false) (ha : s.accelEn = true) :
    s.encodeOn c k = s.buildStep.endCommand c (k.accept.runAll s.buildStep.lut) := by
  simp [State.encodeOn, h, ha]

/-- R113 in numbers. -/
theorem Context.rejects_eq_false (k : Context) : k.rejects = false ↔ k.srcLen = 256#32 ∧ 256 ≤ k.dstCap.toNat := by
  simp [Context.rejects, Context.lenFails, Context.capFails, BitVec.ult]

/-! ### What a step can do -/

/-- One move of the machine from s, the taken event being gone from its schedule already. -/
inductive Move (s : State) : State → Prop where
  /-- Nothing: no such context, no request, no run, or an access that is not the block's. -/
  | stay : Move s s
  /-- R69. -/
  | hold (c : Nat) (k : Context) (e : Event) : s.ctxs[c]? = some k → k.busy = true → Move s (s.hold c k e)
  /-- A read, or an access that gets ERROR (R119, R223). -/
  | answer (c : Nat) (k : Context) (r : Response) :
    s.ctxs[c]? = some k → k.busy = false → Move s (s.putCtx c (k.respond r))
  /-- A write to a register with storage (R118). -/
  | write (c : Nat) (k k' : Context) (v : Word) (r : Reg) :
    s.ctxs[c]? = some k → k.busy = false → k.writeReg v r = some k' → Move s (s.putCtx c (k'.respond .ok))
  /-- IllegalCommand (R222). -/
  | illegal (c : Nat) (k : Context) : s.ctxs[c]? = some k → k.busy = false →
    Move s ({ s with cur := c }.endCommand c (k.accept.takeTrap .illegalCommand))
  /-- A command taken whole: LUTBUILD (R111). -/
  | lutbuild (c : Nat) (k : Context) : s.ctxs[c]? = some k → k.busy = false →
    Move s ({ s with cur := c }.lutbuildOn c k)
  /-- A command taken whole: ENCODE (R112). -/
  | encode (c : Nat) (k : Context) : s.ctxs[c]? = some k → k.busy = false →
    Move s ({ s with cur := c }.encodeOn c k)
  /-- A command issued. -/
  | issue (c : Nat) (k : Context) (i : Instr) : s.ctxs[c]? = some k → k.busy = false →
    Move s ({ s with cur := c }.issueOn c k i)
  /-- The builder serves a LUTBUILD (R111, R131). -/
  | buildEnd (c : Nat) (k : Context) : s.ctxs[c]? = some k → k.pending = some .lutbuild →
    Move s (s.buildStep.endCommand c { k with done := true })
  /-- The builder serves an ENCODE, whose run starts (R115, R116). -/
  | buildRun (c : Nat) (k : Context) : s.ctxs[c]? = some k → k.pending = some .encode →
    Move s (s.buildStep.putCtx c { k with pending := none }.startRun)
  /-- A group step that is not the last (R161). -/
  | group (c : Nat) (k : Context) : s.ctxs[c]? = some k → k.phase = .run → (k.groupStep s.lut).grp.toNat < 32 →
    Move s (s.putCtx c (k.groupStep s.lut))
  /-- The last group step and completion (R169). -/
  | complete (c : Nat) (k : Context) : s.ctxs[c]? = some k → k.phase = .run →
    ¬ (k.groupStep s.lut).grp.toNat < 32 → Move s (s.endCommand c (k.groupStep s.lut).completeRun)

theorem builderStep_move (s : State) (c : Nat) : Move s (s.builderStep c) := by
  unfold State.builderStep
  cases hk : s.ctxs[c]? with
  | none => exact .stay
  | some k =>
    cases hp : k.pending with
    | none => simp only [hp]; exact .stay
    | some i =>
      cases i with
      | lutbuild => simp only [hp]; have h := Move.buildEnd c k hk hp; rwa [hp] at h
      | encode => simp only [hp]; exact .buildRun c k hk hp

theorem sequencerStep_move (s : State) (c : Nat) : Move s (s.sequencerStep c) := by
  unfold State.sequencerStep
  cases hk : s.ctxs[c]? with
  | none => exact .stay
  | some k =>
    cases hp : k.phase with
    | idle => simp only [hp]; exact .stay
    | run =>
      by_cases hg : (k.groupStep s.lut).grp.toNat < 32
      · simp only [hp, hg, if_true]; exact .group c k hk hp hg
      · simp only [hp, hg, if_false]; exact .complete c k hk hp hg

theorem commandWrite_move {s : State} {c : Nat} {k : Context} (whole : Bool) (w : Word) (hk : s.ctxs[c]? = some k)
    (hb : k.busy = false) : ∃ t, s.commandWrite whole c k w = .next t ∧ Move s t := by
  unfold State.commandWrite
  cases hd : decode w with
  | error e => exact ⟨_, rfl, .illegal c k hk hb⟩
  | ok i =>
    cases whole with
    | false => exact ⟨_, rfl, .issue c k i hk hb⟩
    | true =>
      have hs : { s with cur := c }.Selected k := ⟨hk, hb⟩
      cases i with
      | lutbuild => exact ⟨_, exec_lutbuild hs, .lutbuild c k hk hb⟩
      | encode => exact ⟨_, exec_encode hs, .encode c k hk hb⟩

theorem performAccess_move {s : State} {c : Nat} {k : Context} (whole : Bool) (a : Access) (off : Nat)
    (hk : s.ctxs[c]? = some k) (hb : k.busy = false) : ∃ t, s.performAccess whole a c off k = .next t ∧ Move s t := by
  unfold State.performAccess
  by_cases ha : a.aligned
  · simp only [ha, Bool.not_true, Bool.false_eq_true, if_false]
    cases a.dir with
    | read =>
      cases s.readReg k (regAt off) with
      | none => exact ⟨_, rfl, .answer c k .error hk hb⟩
      | some v => exact ⟨_, rfl, .answer c k (.data v) hk hb⟩
    | write v =>
      by_cases hc : regAt off = .cmd
      · simp only [hc, if_true]
        exact commandWrite_move whole v hk hb
      · simp only [hc, if_false]
        cases hw : k.writeReg v (regAt off) with
        | none => exact ⟨_, rfl, .answer c k .error hk hb⟩
        | some k' => exact ⟨_, rfl, .write c k k' v _ hk hb hw⟩
  · simp only [ha, Bool.not_false, if_true]
    exact ⟨_, rfl, .answer c k .error hk hb⟩

theorem hostAccess_move (s : State) (whole : Bool) (a : Access) :
    ∃ t, s.hostAccess whole a = .next t ∧ Move s t := by
  unfold State.hostAccess
  cases s.locate a.addr with
  | none => exact ⟨s, rfl, .stay⟩
  | some p =>
    obtain ⟨c, off⟩ := p
    cases hk : s.ctxs[c]? with
    | none => exact ⟨s, by simp only [hk], .stay⟩
    | some k =>
      simp only [hk]
      by_cases hb : k.busy
      · simp only [hb, if_true]
        exact ⟨_, rfl, .hold c k _ hk hb⟩
      · simp only [hb]
        exact performAccess_move whole a off hk (by simpa using hb)

theorem idleStep_move (s : State) : Move s s.idleStep := by
  simp only [State.idleStep]
  generalize s.ctxs.findIdx Context.busy = c
  cases s.ctxs[c]? with
  | none => exact .stay
  | some k =>
    by_cases hp : k.pending.isSome
    · simp only [hp, if_true]; exact builderStep_move s c
    · simp only [hp]; exact sequencerStep_move s c

/-- The state a step takes its event from: the schedule without the event. -/
def State.dropEvent (s : State) : State := { s with inputs := s.inputs.tail }

/-- The step with an event scheduled. -/
theorem step_of_inputs {s : State} {e : Event} {rest : List Event} (h : s.inputs = e :: rest) :
    step s = { s with inputs := rest }.takeEvent e := by
  simp [step, State.stepOnce, h]

/-- What a step can do: it always answers a next state, which is reset's when reset is what comes next, and else one
move away. -/
theorem step_move (s : State) :
    (∃ accelEn rest, s.inputs = .reset accelEn :: rest ∧ step s = .next (s.dropEvent.applyReset accelEn)) ∨
    (s.resetNext = false ∧ ∃ t, step s = .next t ∧ Move s.dropEvent t) := by
  cases hi : s.inputs with
  | nil =>
    refine .inr ⟨by simp [State.resetNext, hi], _, by simp only [step, State.stepOnce, hi]; rfl, ?_⟩
    have hd : s.dropEvent = s := by
      cases s
      simp only at hi
      subst hi
      rfl
    rw [hd]
    exact idleStep_move s
  | cons e rest =>
    have hd : s.dropEvent = { s with inputs := rest } := by simp [State.dropEvent, hi]
    rw [hd, step_of_inputs hi]
    cases e with
    | access a =>
      obtain ⟨t, ht, hm⟩ := hostAccess_move { s with inputs := rest } true a
      exact .inr ⟨by simp [State.resetNext, hi], t, ht, hm⟩
    | issue a =>
      obtain ⟨t, ht, hm⟩ := hostAccess_move { s with inputs := rest } false a
      exact .inr ⟨by simp [State.resetNext, hi], t, ht, hm⟩
    | builder c => exact .inr ⟨by simp [State.resetNext, hi], _, rfl, builderStep_move _ c⟩
    | sequencer c => exact .inr ⟨by simp [State.resetNext, hi], _, rfl, sequencerStep_move _ c⟩
    | reset b => exact .inl ⟨b, rest, rfl, rfl⟩

end Sys2Proof.Machine
end

