-- ==== Sys2Proof/Laws/Invariant.lean ====
section
/-! SUPPORT. The invariant's small laws: which shared operations keep a context's invariant and the machine's, and what a
run in progress has to show, in the terms of `Context.DoneUpTo`. -/

namespace Sys2Proof.Machine

open Sys2Proof

/-- A context in no command is idle and has no request. -/
theorem idle_of_not_busy {k : Context} (h : k.busy = false) : k.phase = .idle ∧ k.pending = none := by
  unfold Context.busy at h
  cases hp : k.phase <;> cases hq : k.pending <;> simp [hp, hq] at h ⊢

theorem Context.ok_reset (a : Bool) (r c : Nat) : Context.Ok a false (Context.reset r c) := by
  constructor <;> simp [Context.reset, Context.busy]

/-- A context that is good before the table is built is good after it. -/
theorem Context.Ok.build {a v : Bool} {k : Context} (h : Context.Ok a v k) : Context.Ok a (v || a) k :=
  ⟨h.count_le, h.grp_le, h.run_bound, h.err_code, h.err_done, h.accel_done, h.pv_err,
    fun hr => ⟨by simp [(h.run_table hr).1], (h.run_table hr).2⟩, h.pending_idle, h.busy_record, h.run_valid,
    h.idle_held⟩

/-- R37: with no error recorded, PV is 0. -/
theorem Context.Ok.pv_zero {a v : Bool} {k : Context} (h : Context.Ok a v k) (he : k.err = 0#4) :
    k.lenBad = false ∧ k.capBad = false := by
  constructor <;> by_contra hc
  · have := h.pv_err (.inl (by simpa using hc)); simp [he] at this
  · have := h.pv_err (.inr (by simpa using hc)); simp [he] at this

/-- The end of a command that ran nothing (R111, R114). -/
theorem Context.Ok.done {a v : Bool} {k : Context} (h : Context.Ok a v k) (hb : k.busy = false) :
    Context.Ok a v (Context.ended { k.accept with done := true }) := by
  obtain ⟨hp, -⟩ := idle_of_not_busy hb
  constructor <;> simp [hp, Context.busy] <;> first | exact h.count_le | exact h.grp_le

/-- The end of a rejected ENCODE (R113). -/
theorem Context.Ok.rejected {a v : Bool} {k : Context} (h : Context.Ok a v k) (hb : k.busy = false) :
    Context.Ok a v k.rejected.ended := by
  obtain ⟨hp, -⟩ := idle_of_not_busy hb
  constructor <;> simp [Context.rejected, hp, Context.busy] <;> first | exact h.count_le | exact h.grp_le

/-- The end of an illegal command word's write (R222). -/
theorem Context.Ok.illegal {a v : Bool} {k : Context} (h : Context.Ok a v k) (hb : k.busy = false) :
    Context.Ok a v (k.accept.takeTrap .illegalCommand).ended := by
  obtain ⟨hp, -⟩ := idle_of_not_busy hb
  constructor <;> simp [hp, Context.busy] <;> first | exact h.count_le | exact h.grp_le

/-- The end of a whole run (R169). -/
theorem Context.ok_run (a v : Bool) (k : Context) : Context.Ok a v (k.accept.runAll buildLut).ended := by
  have h : (k.accept.runAll buildLut).count.toNat ≤ 256 := by
    rw [k.accept.runAll_doneUpTo.count]; exact keptOf_length_le _ _
  constructor <;> simp [Context.busy, Context.runAll_grp]
  exact h

/-- R46: any reset of a block with legal parameters. -/
theorem State.resetWith_inv (p : Params) (r : Nat) (inputs : List Event) (hn : 1 ≤ p.nctx)
    (hb : p.base % pageBytes = 0) : (State.resetWith p r inputs).Inv := by
  refine ⟨by simp [State.resetWith], by simp [State.resetWith], by simp [State.resetWith]; omega, hb, fun k hk => ?_⟩
  simp only [State.resetWith, List.mem_map] at hk
  obtain ⟨c, -, rfl⟩ := hk
  exact Context.ok_reset _ _ _

theorem State.Inv.dropEvent {s : State} (h : s.Inv) : s.dropEvent.Inv :=
  ⟨h.table, h.table_enabled, h.cur_lt, h.base_page, h.ctx_ok⟩

/-- Replacing one context by a good one, with any schedule and any existing context selected, keeps the invariant. -/
theorem State.Inv.set {s : State} (h : s.Inv) (c : Nat) (k : Context) (hk : Context.Ok s.accelEn s.lutValid k)
    (inputs : List Event) (cur : Nat) (hc : cur < s.ctxs.length) :
    State.Inv { s with ctxs := s.ctxs.set c k, inputs := inputs, cur := cur } := by
  refine ⟨h.table, h.table_enabled, by simpa using hc, h.base_page, fun k' hk' => ?_⟩
  rcases List.mem_or_eq_of_mem_set hk' with h1 | rfl
  · exact h.ctx_ok _ h1
  · exact hk

/-- The builder's step keeps the invariant when the block is enabled (R131). -/
theorem State.Inv.build {s : State} (h : s.Inv) (ha : s.accelEn = true) : s.buildStep.Inv := by
  refine ⟨fun _ => s.buildStep_lut_eq h.table, by simp [ha], by simpa using h.cur_lt, by simpa using h.base_page,
    fun k hk => ?_⟩
  have := (h.ctx_ok k (by simpa using hk)).build
  simpa [ha] using this

/-- The end of a command with a good content keeps the invariant (R122). -/
theorem State.Inv.endCommand {s : State} (h : s.Inv) (c : Nat) (k : Context)
    (hk : Context.Ok s.accelEn s.lutValid k.ended) : (s.endCommand c k).Inv :=
  h.set c k.ended hk _ _ h.cur_lt

/-- Selecting an existing context keeps the invariant. -/
theorem State.Inv.select {s : State} (h : s.Inv) (c : Nat) (hc : c < s.ctxs.length) : State.Inv { s with cur := c } :=
  ⟨h.table, h.table_enabled, hc, h.base_page, h.ctx_ok⟩

/-- A running context's partial result, in the terms of Sys2Proof/Laws/Run.lean. -/
theorem Context.partial_iff (k : Context) : k.Partial ↔ (k.phase = .run → k.DoneUpTo k.grp.toNat) := by
  unfold Context.Partial
  rw [scalarPrefix_values, scalarPrefix_count]
  exact ⟨fun h hr => ⟨(h hr).1, (h hr).2.1, (h hr).2.2⟩, fun h hr => ⟨(h hr).1, (h hr).2, (h hr).3⟩⟩

/-- An idle context has nothing to show. -/
theorem Context.partial_of_idle {k : Context} (h : k.phase = .idle) : k.Partial := by
  rw [Context.partial_iff]; intro hr; simp [h] at hr

end Sys2Proof.Machine
end

