-- ==== Sys2Proof/Laws/Port.lean ====
section
/-! SUPPORT. The register page's addresses, one access that no hold delays, one command word at the port, and several
steps of one sequencer. -/

namespace Sys2Proof.Machine

open Sys2Proof

/-! ### Where the registers are (R61) -/

theorem fin_ofNat_eq {n : Nat} [NeZero n] (x : Nat) (i : Fin n) (h : x = i.val) : Fin.ofNat n x = i := by
  apply Fin.ext; simp [Fin.ofNat, h, Nat.mod_eq_of_lt i.isLt]

theorem regAt_rleLo (n : Fin 4) : regAt (0x020 + 8 * n.val) = .rleLo n := by revert n; decide

theorem regAt_rleHi (n : Fin 4) : regAt (0x024 + 8 * n.val) = .rleHi n := by revert n; decide

theorem regAt_scan (i : Fin 256) : regAt (0x400 + 4 * i.val) = .scan i := by
  have := i.isLt
  unfold regAt
  repeat rw [if_neg (by omega)]
  rw [if_pos (by omega), fin_ofNat_eq _ i (by omega)]

theorem regAt_out (i : Fin 256) : regAt (0x800 + 4 * i.val) = .out i := by
  have := i.isLt
  unfold regAt
  repeat rw [if_neg (by omega)]
  rw [if_pos (by omega), fin_ofNat_eq _ i (by omega)]

/-- CMD stands at offset 0 only. -/
theorem regAt_eq_cmd {off : Nat} (h : regAt off = .cmd) : off = 0x000 := by
  by_contra hn
  unfold regAt at h
  rw [if_neg hn] at h
  have other : ∀ (p : Prop) [Decidable p] (x y : Reg), x ≠ .cmd → y ≠ .cmd → (if p then x else y) ≠ .cmd := by
    intro p _ x y hx hy
    by_cases h : p
    · rw [if_pos h]; exact hx
    · rw [if_neg h]; exact hy
  revert h
  repeat' apply other
  all_goals nofun

/-! ### One access -/

/-- An access that no hold delays is performed. -/
theorem step_of_presents {s : State} {a : Access} {c off : Nat} {k : Context} {rest : List Event}
    (h : s.Presents a c off k rest) :
    ∃ whole, step s = State.performAccess { s with inputs := rest } whole a c off k := by
  have hl : State.locate { s with inputs := rest } a.addr = some (c, off) := h.place
  have hb : k.busy = false := h.idle
  rcases h.head with hh | hh
  · exact ⟨true, by rw [step_of_inputs hh]; simp only [State.takeEvent, State.hostAccess, hl, h.ctx, hb]; rfl⟩
  · exact ⟨false, by rw [step_of_inputs hh]; simp only [State.takeEvent, State.hostAccess, hl, h.ctx, hb]; rfl⟩

/-- The write of a command's word to CMD of a context that is in no command: taken whole it is the command, issued it
is the command's first part. -/
theorem step_of_command {s : State} {a : Access} {c : Nat} {k : Context} {i : Instr} (rest : List Event)
    (hl : s.locate a.addr = some (c, 0x000)) (hw : a.width = 4) (ha : a.addr % 4 = 0)
    (hd : a.dir = .write (encode i)) (hk : s.ctxs[c]? = some k) (hb : k.busy = false) :
    step { s with inputs := .access a :: rest } = exec i { s with inputs := rest, cur := c } ∧
    step { s with inputs := .issue a :: rest } = .next ({ s with inputs := rest, cur := c }.issueOn c k i) := by
  have hdec : decode (encode i) = .ok i := by cases i <;> decide
  have hal : a.aligned = true := by simp [Access.aligned, hw, ha]
  have hl' : ∀ inp, State.locate { s with inputs := inp } a.addr = some (c, 0x000) := fun _ => hl
  constructor <;>
  · rw [step_of_inputs rfl]
    simp only [State.takeEvent, State.hostAccess, hl', hk, hb, Bool.false_eq_true, if_false, State.performAccess, hal,
      hd, Bool.not_true]
    rw [if_pos (by decide)]
    simp [State.commandWrite, hdec]

/-! ### Several steps -/

theorem run_succ (n : Nat) {s t : State} (h : step s = .next t) : core.run (n + 1) s = core.run n t := by
  have h' : core.step s = .next t := h
  simp only [Host.Core.run, h']

theorem run_add (n m : Nat) {s t : State} (h : core.run n s = .next t) : core.run (n + m) s = core.run m t := by
  induction n generalizing s with
  | zero => cases h; simp
  | succ n ih =>
    simp only [Host.Core.run] at h
    cases hs : core.step s with
    | next u =>
      rw [hs] at h
      rw [show n + 1 + m = (n + m) + 1 by omega, run_succ _ hs]
      exact ih h
    | fault f => rw [hs] at h; cases h
    | refused f => rw [hs] at h; cases h

/-- Replacing a context by itself changes nothing. -/
theorem set_getElem?_same {s : State} {c : Nat} {k : Context} (hk : s.ctxs[c]? = some k) : s.ctxs.set c k = s.ctxs := by
  refine List.ext_getElem? fun d => ?_
  by_cases h : d = c
  · subst h; rw [set_getElem?_self hk, hk]
  · rw [set_getElem?_other _ _ h]

theorem Context.groupSteps_last (lut : Table) (n : Nat) (k : Context) :
    Context.groupSteps lut (n + 1) k = (Context.groupSteps lut n k).groupStep lut := by
  induction n generalizing k with
  | zero => rfl
  | succ n ih => rw [Context.groupSteps, ih]; rfl

/-- n steps of a running context's sequencer, none of them the last, are n group steps. -/
theorem run_groups (n : Nat) (s : State) (c : Nat) (k : Context) (rest : List Event) (hk : s.ctxs[c]? = some k)
    (hr : k.phase = .run) (hg : k.grp.toNat + n < 32) :
    core.run n { s with inputs := List.replicate n (.sequencer c) ++ rest } =
      .next { s with inputs := rest, ctxs := s.ctxs.set c (Context.groupSteps s.lut n k) } := by
  induction n generalizing k s with
  | zero => rw [Context.groupSteps, set_getElem?_same hk]; rfl
  | succ n ih =>
    have hg1 := Context.groupStep_grp s.lut k (by omega)
    have hst : step { s with inputs := List.replicate (n + 1) (.sequencer c) ++ rest } =
        .next { s with inputs := List.replicate n (.sequencer c) ++ rest, ctxs := s.ctxs.set c (k.groupStep s.lut) } := by
      rw [step_of_inputs (e := .sequencer c) (rest := List.replicate n (.sequencer c) ++ rest)
        (by simp [List.replicate_succ])]
      simp only [State.takeEvent, State.sequencerStep, hk, hr]
      rw [if_pos (by omega)]
      rfl
    rw [run_succ _ hst]
    have := ih { s with ctxs := s.ctxs.set c (k.groupStep s.lut) } (k.groupStep s.lut) (set_getElem?_self hk _) hr
      (by omega)
    simp only [List.set_set] at this
    exact this

/-- The last step of a run (R169). -/
theorem step_last_group (s : State) (c : Nat) (k : Context) (rest : List Event) (hk : s.ctxs[c]? = some k)
    (hr : k.phase = .run) (hg : k.grp.toNat = 31) :
    step { s with inputs := .sequencer c :: rest } =
      .next ({ s with inputs := rest }.endCommand c (k.groupStep s.lut).completeRun) := by
  have hg1 := Context.groupStep_grp s.lut k (by omega)
  rw [step_of_inputs rfl]
  simp only [State.takeEvent, State.sequencerStep, hk, hr]
  rw [if_neg (by omega)]

/-- All the steps a run has left: its end. -/
theorem run_to_end (n : Nat) (s : State) (c : Nat) (k : Context) (rest : List Event) (hk : s.ctxs[c]? = some k)
    (hr : k.phase = .run) (hg : k.grp.toNat + n = 31) :
    core.run (n + 1) { s with inputs := List.replicate (n + 1) (.sequencer c) ++ rest } =
      .next ({ s with inputs := rest }.endCommand c (Context.groupSteps s.lut (n + 1) k).completeRun) := by
  have h1 := run_groups n s c k (.sequencer c :: rest) hk hr (by omega)
  have he : List.replicate (n + 1) (Event.sequencer c) ++ rest =
      List.replicate n (.sequencer c) ++ (.sequencer c :: rest) := by
    rw [List.replicate_succ']; simp
  rw [he, run_add n 1 h1, Context.groupSteps_last]
  have := step_last_group { s with ctxs := s.ctxs.set c (Context.groupSteps s.lut n k) } c
    (Context.groupSteps s.lut n k) rest (set_getElem?_self hk _) (by simpa using hr)
    (by rw [Context.groupSteps_grp _ _ _ (by omega)]; omega)
  rw [run_succ 0 this]
  simp only [Host.Core.run, State.endCommand, State.putCtx, List.set_set]

end Sys2Proof.Machine
end

