-- ==== Sys2Proof/Laws/Agents.lean ====
section
/-! SUPPORT. Each agent's step said once: what it makes of the context it is addressed to, that it leaves every other
context (R70), and that its outcome depends on that context and on the shared part alone, how many steps a command still needs, and who asks for the
table. -/

namespace Sys2Proof.Machine

open Sys2Proof

/-! ### What a step writes -/

/-- The builder's step for context c leaves every other. -/
theorem builderStep_other (s : State) {c d : Nat} (h : d ≠ c) : (s.builderStep c).ctxs[d]? = s.ctxs[d]? := by
  unfold State.builderStep
  split
  · rfl
  · split
    · rfl
    · simp only [State.endCommand_ctxs, State.buildStep_ctxs]; exact set_getElem?_other _ _ h
    · simp only [State.putCtx_ctxs, State.buildStep_ctxs]; exact set_getElem?_other _ _ h

/-- The step of context c's sequencer leaves every other context. -/
theorem sequencerStep_other (s : State) {c d : Nat} (h : d ≠ c) : (s.sequencerStep c).ctxs[d]? = s.ctxs[d]? := by
  unfold State.sequencerStep
  split
  · rfl
  · split
    · rfl
    · simp only
      split <;> exact set_getElem?_other _ _ h

/-- A command leaves every context but the selected one. -/
theorem exec_other {s t : State} (i : Instr) {k : Context} (hs : s.Selected k) (h : exec i s = .next t) {d : Nat}
    (hd : d ≠ s.cur) : t.ctxs[d]? = s.ctxs[d]? := by
  cases i with
  | lutbuild =>
    rw [exec_lutbuild hs] at h; cases h
    unfold State.lutbuildOn; split
    · exact (buildStep_endCommand_same _ _ _).others d hd
    · exact (endCommand_same _ _ _).others d hd
  | encode =>
    rw [exec_encode hs] at h; cases h
    unfold State.encodeOn; split
    · exact (endCommand_same _ _ _).others d hd
    · split
      · exact (endCommand_same _ _ _).others d hd
      · exact (buildStep_endCommand_same _ _ _).others d hd

/-- A command issued on context c leaves every other. -/
theorem issueOn_other (s : State) {c d : Nat} (k : Context) (i : Instr) (hd : d ≠ c) :
    (s.issueOn c k i).ctxs[d]? = s.ctxs[d]? := by
  cases i <;> simp only [State.issueOn] <;> (repeat' split) <;> exact set_getElem?_other _ _ hd

/-- An access leaves every context but the one whose page it goes to. -/
theorem hostAccess_other {s t : State} (whole : Bool) (a : Access) (h : s.hostAccess whole a = .next t) {d : Nat}
    (hd : (s.locate a.addr).map (·.1) ≠ some d) : t.ctxs[d]? = s.ctxs[d]? := by
  unfold State.hostAccess at h
  cases hl : s.locate a.addr with
  | none => rw [hl] at h; cases h; rfl
  | some p =>
    obtain ⟨c, off⟩ := p
    rw [hl] at h hd
    have hd : d ≠ c := by simp at hd; exact fun e => hd e.symm
    simp only at h
    cases hk : s.ctxs[c]? with
    | none => rw [hk] at h; cases h; rfl
    | some k =>
      simp only [hk] at h
      by_cases hb : k.busy = true
      · rw [if_pos hb] at h; cases h; exact set_getElem?_other _ _ hd
      · rw [if_neg hb] at h
        unfold State.performAccess at h
        split at h
        · cases h; exact set_getElem?_other _ _ hd
        · split at h
          · split at h <;> cases h <;> exact set_getElem?_other _ _ hd
          · split at h
            · unfold State.commandWrite at h
              split at h
              · cases h; exact set_getElem?_other _ _ hd
              · split at h
                · exact exec_other (s := { s with cur := c }) _ ⟨hk, by simpa using hb⟩ h hd
                · cases h; exact issueOn_other { s with cur := c } k _ hd
            · split at h <;> cases h <;> exact set_getElem?_other _ _ hd

/-- What the builder's step makes of the context whose request it serves. -/
def Context.served (k : Context) : Instr → Context
  | .lutbuild => Context.ended { k with done := true }
  | .encode => { k with pending := none }.startRun

theorem builderStep_self {s : State} {c : Nat} {k : Context} {i : Instr} (hk : s.ctxs[c]? = some k)
    (hp : k.pending = some i) :
    (s.builderStep c).ctxs = s.ctxs.set c (k.served i) ∧ (s.builderStep c).lut = s.buildStep.lut ∧
      (s.builderStep c).lutValid = s.buildStep.lutValid := by
  unfold State.builderStep
  cases i <;> simp [hk, hp, Context.served]

theorem builderStep_none {s : State} {c : Nat} {k : Context} (hk : s.ctxs[c]? = some k) (hp : k.pending = none) :
    s.builderStep c = s := by
  unfold State.builderStep; simp [hk, hp]

/-- What its sequencer's step makes of a context. -/
def Context.sequenced (lut : Table) (k : Context) : Context :=
  match k.phase with
  | .idle => k
  | .run => if (k.groupStep lut).grp.toNat < 32 then k.groupStep lut else (k.groupStep lut).completeRun.ended

theorem sequencerStep_self {s : State} {c : Nat} {k : Context} (hk : s.ctxs[c]? = some k) :
    (s.sequencerStep c).ctxs[c]? = some (k.sequenced s.lut) := by
  unfold State.sequencerStep
  cases hp : k.phase with
  | idle => simp [hp, Context.sequenced, hk]
  | run =>
    simp only [hk, hp, Context.sequenced]
    split <;> exact set_getElem?_self hk _

/-- The sequencer leaves everything shared. -/
theorem sequencerStep_shared (s : State) (c : Nat) : SameShared s (s.sequencerStep c) := by
  unfold State.sequencerStep
  split
  · exact ⟨rfl, rfl, rfl, rfl, rfl, rfl⟩
  · split
    · exact ⟨rfl, rfl, rfl, rfl, rfl, rfl⟩
    · simp only
      split
      · exact ⟨rfl, rfl, rfl, rfl, rfl, by simp⟩
      · exact ⟨rfl, rfl, rfl, rfl, rfl, by simp⟩

/-- With nothing scheduled, the step is one of the first context inside a command, or nothing. -/
theorem idleStep_of_busy {s : State} {k : Context} (hk : s.ctxs[s.ctxs.findIdx Context.busy]? = some k) :
    s.idleStep = if k.pending.isSome then s.builderStep (s.ctxs.findIdx Context.busy)
      else s.sequencerStep (s.ctxs.findIdx Context.busy) := by
  simp only [State.idleStep, hk]

/-! ### What a step reads -/

/-- Two states with the same context c and the same shared part. -/
structure SameView (c : Nat) (s t : State) : Prop extends SameShared s t where
  ctx : t.ctxs[c]? = s.ctxs[c]?

theorem SameShared.locate {s t : State} (h : SameShared s t) (a : Nat) : t.locate a = s.locate a := by
  simp only [State.locate, h.base, h.nctx]

theorem SameShared.readReg {s t : State} (h : SameShared s t) (k : Context) (r : Reg) : t.readReg k r = s.readReg k r := by
  cases r <;> simp [State.readReg, h.accelEn, h.lutValid, h.lut]

theorem SameShared.buildStep {s t : State} (h : SameShared s t) : SameShared s.buildStep t.buildStep := by
  have hv := h.lutValid
  cases hs : s.lutValid <;> rw [hs] at hv <;> simp only [State.buildStep, hs, hv] <;>
    exact ⟨h.accelEn, h.base, by first | rfl | exact h.lutValid, by first | rfl | exact h.lut, h.resets, h.nctx⟩

/-- Selecting a context, or changing the schedule, changes nothing that is seen. -/
theorem SameShared.select {s t : State} (h : SameShared s t) (c : Nat) :
    SameShared { s with cur := c } { t with cur := c } :=
  ⟨h.accelEn, h.base, h.lutValid, h.lut, h.resets, h.nctx⟩

/-- The same new content of context c. -/
theorem SameShared.put {s t : State} (h : SameShared s t) {c : Nat} {k₁ k₂ : Context} (hs : s.ctxs[c]? = some k₁)
    (ht : t.ctxs[c]? = some k₂) (k : Context) : SameView c (s.putCtx c k) (t.putCtx c k) :=
  ⟨⟨h.accelEn, h.base, h.lutValid, h.lut, h.resets, by simp [h.nctx]⟩,
    (set_getElem?_self ht k).trans (set_getElem?_self hs k).symm⟩

/-- The same end of a command of context c. -/
theorem SameShared.endCommand {s t : State} (h : SameShared s t) {c : Nat} {k₁ k₂ : Context} (hs : s.ctxs[c]? = some k₁)
    (ht : t.ctxs[c]? = some k₂) (k : Context) : SameView c (s.endCommand c k) (t.endCommand c k) :=
  ⟨⟨h.accelEn, h.base, h.lutValid, h.lut, h.resets, by simp [h.nctx]⟩,
    (set_getElem?_self ht k.ended).trans (set_getElem?_self hs k.ended).symm⟩

theorem SameShared.lutbuildOn {s t : State} (h : SameShared s t) {c : Nat} {k : Context} (hs : s.ctxs[c]? = some k)
    (ht : t.ctxs[c]? = some k) : SameView c (s.lutbuildOn c k) (t.lutbuildOn c k) := by
  simp only [State.lutbuildOn, h.accelEn]
  split
  · exact h.buildStep.endCommand (by simpa using hs) (by simpa using ht) _
  · exact h.endCommand hs ht _

theorem SameShared.encodeOn {s t : State} (h : SameShared s t) {c : Nat} {k : Context} (hs : s.ctxs[c]? = some k)
    (ht : t.ctxs[c]? = some k) : SameView c (s.encodeOn c k) (t.encodeOn c k) := by
  simp only [State.encodeOn, h.accelEn, h.buildStep.lut]
  split
  · exact h.endCommand hs ht _
  · split
    · exact h.endCommand hs ht _
    · exact h.buildStep.endCommand (by simpa using hs) (by simpa using ht) _

theorem SameShared.issueOn {s t : State} (h : SameShared s t) {c : Nat} {k : Context} (hs : s.ctxs[c]? = some k)
    (ht : t.ctxs[c]? = some k) (i : Instr) : SameView c (s.issueOn c k i) (t.issueOn c k i) := by
  cases i <;> simp only [State.issueOn, h.accelEn] <;> (repeat' split) <;>
    first | exact h.put hs ht _ | exact h.endCommand hs ht _

theorem SameShared.exec {s t s' t' : State} (h : SameShared s t) (hc : t.cur = s.cur) {k : Context} (i : Instr)
    (hs : s.Selected k) (ht : t.Selected k) (h₁ : exec i s = .next s') (h₂ : exec i t = .next t') :
    SameView s.cur s' t' := by
  have hk := ht.ctx
  rw [hc] at hk
  cases i with
  | lutbuild =>
    rw [exec_lutbuild hs] at h₁; rw [exec_lutbuild ht, hc] at h₂; cases h₁; cases h₂
    exact h.lutbuildOn hs.ctx hk
  | encode =>
    rw [exec_encode hs] at h₁; rw [exec_encode ht, hc] at h₂; cases h₁; cases h₂
    exact h.encodeOn hs.ctx hk

theorem SameShared.commandWrite {s t s' t' : State} (h : SameShared s t) (whole : Bool) {c : Nat} {k : Context} (w : Word)
    (hs : s.ctxs[c]? = some k) (ht : t.ctxs[c]? = some k) (hb : k.busy = false)
    (h₁ : s.commandWrite whole c k w = .next s') (h₂ : t.commandWrite whole c k w = .next t') : SameView c s' t' := by
  unfold State.commandWrite at h₁ h₂
  cases hd : decode w with
  | error e =>
    rw [hd] at h₁ h₂; cases h₁; cases h₂
    exact (h.select c).endCommand (k₁ := k) (k₂ := k) hs ht _
  | ok i =>
    rw [hd] at h₁ h₂
    cases whole with
    | false => cases h₁; cases h₂; exact (h.select c).issueOn hs ht i
    | true => exact (h.select c).exec rfl i (k := k) ⟨hs, hb⟩ ⟨ht, hb⟩ h₁ h₂

theorem SameShared.performAccess {s t s' t' : State} (h : SameShared s t) (whole : Bool) (a : Access) {c : Nat} (off : Nat)
    {k : Context} (hs : s.ctxs[c]? = some k) (ht : t.ctxs[c]? = some k) (hb : k.busy = false)
    (h₁ : s.performAccess whole a c off k = .next s') (h₂ : t.performAccess whole a c off k = .next t') :
    SameView c s' t' := by
  unfold State.performAccess at h₁ h₂
  by_cases ha : a.aligned
  · simp only [ha, Bool.not_true, Bool.false_eq_true, if_false] at h₁ h₂
    cases hd : a.dir with
    | read =>
      simp only [hd, h.readReg] at h₁ h₂
      cases hr : s.readReg k (regAt off) <;> simp only [hr] at h₁ h₂ <;> cases h₁ <;> cases h₂ <;> exact h.put hs ht _
    | write v =>
      simp only [hd] at h₁ h₂
      by_cases hc : regAt off = .cmd
      · rw [if_pos hc] at h₁ h₂
        exact h.commandWrite whole v hs ht hb h₁ h₂
      · rw [if_neg hc] at h₁ h₂
        cases hr : k.writeReg v (regAt off) <;> simp only [hr] at h₁ h₂ <;> cases h₁ <;> cases h₂ <;>
          exact h.put hs ht _
  · simp only [ha, Bool.not_false, if_true] at h₁ h₂
    cases h₁; cases h₂
    exact h.put hs ht _

/-- An access to context c's page reads nothing of another context. -/
theorem SameView.hostAccess {s t s' t' : State} {c : Nat} (h : SameView c s t) (whole : Bool) (a : Access)
    (hc : (s.locate a.addr).map (·.1) = some c) (h₁ : s.hostAccess whole a = .next s')
    (h₂ : t.hostAccess whole a = .next t') : SameView c s' t' := by
  unfold State.hostAccess at h₁ h₂
  rw [h.toSameShared.locate] at h₂
  cases hl : s.locate a.addr with
  | none => rw [hl] at hc; cases hc
  | some p =>
    obtain ⟨d, off⟩ := p
    have hd : d = c := by rw [hl] at hc; simpa using hc
    subst hd
    have hctx := h.ctx
    cases hs : s.ctxs[d]? with
    | none =>
      rw [hs] at hctx
      simp only [hl, hs, hctx] at h₁ h₂
      cases h₁; cases h₂; exact h
    | some k =>
      rw [hs] at hctx
      simp only [hl, hs, hctx] at h₁ h₂
      by_cases hb : k.busy = true
      · rw [if_pos hb] at h₁ h₂
        cases h₁; cases h₂
        exact h.toSameShared.put hs hctx _
      · rw [if_neg hb] at h₁ h₂
        exact h.toSameShared.performAccess whole a off hs hctx (by simpa using hb) h₁ h₂

/-- The builder's step for context c reads nothing of another context. -/
theorem SameView.builderStep {s t : State} {c : Nat} (h : SameView c s t) :
    SameView c (s.builderStep c) (t.builderStep c) := by
  have hctx := h.ctx
  unfold State.builderStep
  cases hs : s.ctxs[c]? with
  | none => rw [hs] at hctx; simp only [hctx]; exact h
  | some k =>
    rw [hs] at hctx
    simp only [hctx]
    split
    · exact h
    · exact h.toSameShared.buildStep.endCommand (by simpa using hs) (by simpa using hctx) _
    · exact h.toSameShared.buildStep.put (by simpa using hs) (by simpa using hctx) _

/-- The step of context c's sequencer reads nothing of another context. -/
theorem SameView.sequencerStep {s t : State} {c : Nat} (h : SameView c s t) :
    SameView c (s.sequencerStep c) (t.sequencerStep c) := by
  have hctx := h.ctx
  unfold State.sequencerStep
  cases hs : s.ctxs[c]? with
  | none => rw [hs] at hctx; simp only [hctx]; exact h
  | some k =>
    rw [hs] at hctx
    simp only [hctx, h.lut]
    split
    · exact h
    · split
      · exact h.toSameShared.put hs hctx _
      · exact h.toSameShared.endCommand hs hctx _

/-! ### The steps that a command still needs (R261) -/

/-- Two contexts with the same request, PHASE and GRP need the same steps. -/
theorem Context.stepsLeft_congr {k k' : Context} (hp : k'.pending = k.pending) (hr : k'.phase = k.phase)
    (hg : k'.grp = k.grp) : k'.stepsLeft = k.stepsLeft ∧ k'.busy = k.busy := by
  simp only [Context.stepsLeft, Context.busy, hp, hr, hg, and_self]

/-- A context whose run has not reached GRP = 32 is inside a command exactly when steps are left. -/
theorem Context.busy_iff {k : Context} (h : k.phase = .run → k.grp.toNat < 32) : k.busy = true ↔ 0 < k.stepsLeft := by
  unfold Context.stepsLeft Context.busy
  cases hp : k.pending with
  | some i => cases i <;> simp
  | none =>
    cases hr : k.phase with
    | idle => simp
    | run => have := h hr; simp; omega

/-- A good context is inside a command exactly when steps are left, and never more than 33. -/
theorem Context.Ok.stepsLeft {a v : Bool} {k : Context} (h : Context.Ok a v k) :
    k.stepsLeft ≤ 33 ∧ (k.busy = true ↔ 0 < k.stepsLeft) := by
  refine ⟨?_, Context.busy_iff fun hr => (h.run_bound hr).2⟩
  unfold Context.stepsLeft
  split <;> omega

/-- The builder's step takes one of the steps left. -/
theorem Context.served_left {k : Context} {i : Instr} (hp : k.pending = some i) (hi : k.phase = .idle) :
    (k.served i).stepsLeft + 1 = k.stepsLeft ∧ ((k.served i).phase = .run → (k.served i).grp.toNat < 32) := by
  cases i <;> simp [Context.served, Context.stepsLeft, hp, hi, Context.startRun, Context.ended]

/-- A run's sequencer step takes one of the steps left. -/
theorem Context.sequenced_left {k : Context} (lut : Table) (hp : k.pending = none) (hr : k.phase = .run)
    (hg : k.grp.toNat < 32) :
    (k.sequenced lut).stepsLeft + 1 = k.stepsLeft ∧
      ((k.sequenced lut).phase = .run → (k.sequenced lut).grp.toNat < 32) := by
  have h1 := Context.groupStep_grp lut k hg
  have hp2 : (k.groupStep lut).pending = none := hp
  have hr2 : (k.groupStep lut).phase = .run := hr
  simp only [Context.sequenced, hr]
  split
  · simp only [Context.stepsLeft, hp, hr, hp2, hr2, h1]
    omega
  · simp [Context.stepsLeft, hp, hr, Context.completeRun, Context.ended]; omega

/-! ### Who asks for the table (R132) -/

/-- From s to t the table is written only by a command of `ok` taken whole, and a request appears only where a command of
`ok` is issued. -/
structure AsksOnly (whole : Bool) (ok : Nat → Instr → Prop) (s t : State) : Prop where
  table : (t.lut = s.lut ∧ t.lutValid = s.lutValid) ∨ (whole = true ∧ ∃ c i, ok c i)
  request : ∀ (c : Nat) (k' : Context) (i : Instr), t.ctxs[c]? = some k' → k'.pending = some i →
    (∃ k, s.ctxs[c]? = some k ∧ k.pending = some i) ∨ (whole = false ∧ ok c i)

theorem AsksOnly.refl (whole : Bool) (ok : Nat → Instr → Prop) (s : State) : AsksOnly whole ok s s :=
  ⟨.inl ⟨rfl, rfl⟩, fun _ k _ h hp => .inl ⟨k, h, hp⟩⟩

/-- Selecting another context asks for nothing. -/
theorem AsksOnly.of_select {whole : Bool} {ok : Nat → Instr → Prop} {s t : State} {c : Nat}
    (h : AsksOnly whole ok { s with cur := c } t) : AsksOnly whole ok s t := ⟨h.table, h.request⟩

theorem AsksOnly.mono {whole : Bool} {ok ok' : Nat → Instr → Prop} {s t : State} (h : AsksOnly whole ok s t)
    (hi : ∀ c i, ok c i → ok' c i) : AsksOnly whole ok' s t :=
  ⟨h.table.imp_right fun ⟨hw, c, i, h⟩ => ⟨hw, c, i, hi c i h⟩,
    fun c k' i hc hp => (h.request c k' i hc hp).imp_right fun ⟨hw, h⟩ => ⟨hw, hi c i h⟩⟩

/-- A request in a list with context c replaced stood there before, or is the new context's. -/
theorem pending_of_set {l : List Context} {c d : Nat} {k₀ k' : Context} {i : Instr} (h : (l.set c k₀)[d]? = some k')
    (hp : k'.pending = some i) :
    (d = c ∧ k₀.pending = some i) ∨ ∃ k : Context, l[d]? = some k ∧ k.pending = some i := by
  by_cases hd : d = c
  · subst hd
    rw [List.getElem?_set, if_pos rfl] at h
    split at h
    · cases h; exact .inl ⟨rfl, hp⟩
    · cases h
  · rw [set_getElem?_other _ _ hd] at h; exact .inr ⟨k', h, hp⟩

/-- Replacing a context by one with the same request asks for nothing. -/
theorem AsksOnly.put {whole : Bool} {ok : Nat → Instr → Prop} {s : State} {c : Nat} {k : Context}
    (hk : s.ctxs[c]? = some k) (k₀ : Context) (hp : k₀.pending = k.pending) : AsksOnly whole ok s (s.putCtx c k₀) := by
  refine ⟨.inl ⟨rfl, rfl⟩, fun d k' i h hi => .inl ?_⟩
  rcases pending_of_set h hi with ⟨rfl, h0⟩ | h0
  · exact ⟨k, hk, hp ▸ h0⟩
  · exact h0

/-- The end of a command makes no request. -/
theorem endCommand_pending {s s' : State} (hs : s'.ctxs = s.ctxs) {c d : Nat} {k₀ k' : Context} {i : Instr}
    (h : (s'.endCommand c k₀).ctxs[d]? = some k') (hi : k'.pending = some i) :
    ∃ k, s.ctxs[d]? = some k ∧ k.pending = some i := by
  rw [State.endCommand_ctxs, hs] at h
  exact (pending_of_set h hi).resolve_left fun h0 => nomatch h0.2

theorem AsksOnly.endCommand (whole : Bool) (ok : Nat → Instr → Prop) (s : State) (c : Nat) (k₀ : Context) :
    AsksOnly whole ok s (s.endCommand c k₀) :=
  ⟨.inl ⟨rfl, rfl⟩, fun _ _ _ h hi => .inl (endCommand_pending rfl h hi)⟩

/-- The command passes what stands before the build step (R111, R113, R114). -/
def State.Passes (s : State) (k : Context) (i : Instr) : Prop := s.accelEn = true ∧ (i = .encode → k.rejects = false)

/-- A command taken whole writes the table only if it passes. -/
theorem AsksOnly.exec {s t : State} {k : Context} {i : Instr} (hs : s.Selected k) (h : exec i s = .next t) :
    AsksOnly true (fun c j => c = s.cur ∧ j = i ∧ s.Passes k i) s t := by
  have built : ∀ k₀, s.Passes k i →
      AsksOnly true (fun c j => c = s.cur ∧ j = i ∧ s.Passes k i) s (s.buildStep.endCommand s.cur k₀) := fun k₀ hp =>
    ⟨.inr ⟨rfl, _, _, rfl, rfl, hp⟩, fun _ _ _ h hi => .inl (endCommand_pending (State.buildStep_ctxs s) h hi)⟩
  cases i with
  | lutbuild =>
    rw [exec_lutbuild hs] at h; cases h
    unfold State.lutbuildOn
    split
    · exact built _ ⟨‹_›, nofun⟩
    · exact .endCommand _ _ _ _ _
  | encode =>
    rw [exec_encode hs] at h; cases h
    unfold State.encodeOn
    split
    · exact .endCommand _ _ _ _ _
    · split
      · exact .endCommand _ _ _ _ _
      · exact built _ ⟨by simp_all, fun _ => by simp_all⟩

/-- An issued command asks for the table only if it passes. -/
theorem AsksOnly.issueOn (s : State) (c : Nat) (k : Context) (i : Instr) :
    AsksOnly false (fun d j => d = c ∧ j = i ∧ s.Passes k i) s (s.issueOn c k i) := by
  have asks : s.Passes k i → AsksOnly false (fun d j => d = c ∧ j = i ∧ s.Passes k i) s
      (s.putCtx c { k.accept with pending := some i }) := fun hp =>
    ⟨.inl ⟨rfl, rfl⟩, fun _ _ _ h hi => (pending_of_set h hi).symm.imp_right fun ⟨hd, h0⟩ =>
      ⟨rfl, hd, (Option.some.inj h0).symm, hp⟩⟩
  cases i <;> simp only [State.issueOn] <;> (repeat' split) <;>
    first | exact .endCommand _ _ _ _ _ | exact asks ⟨‹_›, by simp_all⟩

/-- A sequencer asks for nothing. -/
theorem AsksOnly.sequencerStep (whole : Bool) (ok : Nat → Instr → Prop) (s : State) (c : Nat) :
    AsksOnly whole ok s (s.sequencerStep c) := by
  unfold State.sequencerStep
  cases hk : s.ctxs[c]? with
  | none => exact .refl _ _ _
  | some k =>
    simp only
    split
    · exact .refl _ _ _
    · split
      · exact .put hk _ rfl
      · exact .endCommand _ _ _ _ _

/-- The builder's step makes no request. -/
theorem builderStep_pending (s : State) (c : Nat) {d : Nat} {k' : Context} {i : Instr}
    (h : (s.builderStep c).ctxs[d]? = some k')
    (hi : k'.pending = some i) : ∃ k, s.ctxs[d]? = some k ∧ k.pending = some i := by
  cases hk : s.ctxs[c]? with
  | none => simp only [State.builderStep, hk] at h; exact ⟨k', h, hi⟩
  | some k =>
    cases hp : k.pending with
    | none => rw [builderStep_none hk hp] at h; exact ⟨k', h, hi⟩
    | some j =>
      rw [(builderStep_self hk hp).1] at h
      refine (pending_of_set h hi).resolve_left fun h0 => ?_
      cases j <;> simp [Context.served, Context.ended, Context.startRun] at h0

/-- The builder writes the table only for a request that is there. -/
theorem builderStep_table (s : State) (c : Nat)
    (h : (s.builderStep c).lutValid ≠ s.lutValid ∨ (s.builderStep c).lut ≠ s.lut) :
    ∃ k, s.ctxs[c]? = some k ∧ k.pending.isSome = true := by
  cases hk : s.ctxs[c]? with
  | none => simp [State.builderStep, hk] at h
  | some k =>
    refine ⟨k, rfl, ?_⟩
    cases hp : k.pending with
    | none => rw [builderStep_none hk hp] at h; simp at h
    | some j => rfl

end Sys2Proof.Machine
end

