-- ==== Sys2Proof/Laws/PerInstr.lean ====
section
/-! SUPPORT. The statements made per instruction: one family, whose members say of each command, as syntax, that its
encoding decodes to it. -/

namespace Sys2Proof.Laws.DecodeEncode

/-- The command's word decodes to it, alone and as its 4 bytes, and the word is the table's (R91, R95, R97). -/
def Statement (i : Instr) : Prop :=
  decode (encode i) = .ok i ∧ decodeBytes (encodeBytes i) = .ok i ∧ (encodeBytes i).length = 4

theorem lutbuild : Statement .lutbuild := ⟨rfl, rfl, rfl⟩

theorem encode : Statement .encode := ⟨rfl, rfl, rfl⟩

end Sys2Proof.Laws.DecodeEncode
end

