-- ==== Sys2Proof/Tests/Slice0.lean ====
section
/-! SUPPORT. The model's own tests, with expected values from the spec's listings and vectors (spec/95_test_vectors.md,
spec/46_lut_contents.md, spec/30_encoding.md), and for every obligation with hypotheses a witness that meets them. -/

namespace Sys2Proof.Tests

open Sys2Proof Sys2Proof.Machine

/-! ### Well-formedness: what the checks refuse -/

theorem test_wf_refuses_no_context : Params.wf { accelEn := true, nctx := 0, base := 0 } = false := by decide

theorem test_wf_refuses_unaligned_base : Params.wf { accelEn := true, nctx := 1, base := 0x800 } = false := by decide

theorem test_wf_accepts_three_pages : Params.wf { accelEn := false, nctx := 3, base := 0x1000 } = true := by decide

/-! ### Decoding: words written out from R90 and R91 -/

/-- ZERO = 24 zero bits, OPC = 0000 0001. -/
theorem test_decode_lutbuild :
    decode (0b000000000000000000000000#24 ++ 0b00000001#8) = .ok .lutbuild ∧ encode .lutbuild = 0x00000001#32 := by
  decide

/-- ZERO = 24 zero bits, OPC = 0000 0010. -/
theorem test_decode_encode :
    decode (0b000000000000000000000000#24 ++ 0b00000010#8) = .ok .encode ∧ encode .encode = 0x00000002#32 := by
  decide

/-- R92: one ZERO bit set, at either end of the field. -/
theorem test_decode_reserved_bits :
    decode (0b000000000000000000000001#24 ++ 0b00000010#8) = .error .reservedBits ∧
    decode (0b100000000000000000000000#24 ++ 0b00000001#8) = .error .reservedBits := by decide

/-- The table's numbering, bytes of the wrong number, and a word that is no command. -/
theorem test_decode_table_word :
    decodeTableWord 32 1 = some .lutbuild ∧ decodeTableWord 32 2 = some .encode ∧ decodeTableWord 32 3 = none ∧
    decodeBytes [0x02#8, 0x00#8, 0x00#8] = .error .wrongLength := by decide

/-! ### The permutation table -/

/-- R200: all 256 rows. -/
theorem test_table_listing :
    (List.range 256).map (fun m => packRow (rowOf (BitVec.ofNat 8 m))) = lutListing := by decide +kernel

/-! ### The datapath -/

/-- A context whose SCAN is given by a formula in the pixel index, set up for ENCODE (SETUP of R96). -/
def ctxOf (f : Nat → Nat) : Context :=
  { Context.reset 0 0 with
    scan := tabulate 256 fun p => BitVec.ofNat 32 (f p)
    srcLen := 256#32
    dstCap := 256#32 }

/-- V-D7 and V-D8 of spec/95_test_vectors.md: pixels 64 to 79, across a block boundary. -/
def scanD (p : Nat) : Nat :=
  if p = 65 then 66 else if p = 66 then 67 else if p = 67 then 68 else if p = 68 then 69 else if p = 69 then 70
  else if p = 70 then 71 else if p = 71 then 72 else if p = 72 then 73 else if p = 73 then 73 else if p = 74 then 73
  else if p = 75 then 76 else if p = 76 then 76 else if p = 77 then 78 else if p = 78 then 79 else if p = 79 then 80
  else if p = 63 then 64 else p

/-- V-D7, V-D8. -/
theorem test_mask_across_blocks :
    dupMask (ctxOf scanD).scan 8 = 0x01#8 ∧ dupMask (ctxOf scanD).scan 9 = 0x16#8 := by decide +kernel

/-- V-D9 with its left neighbour 0, V-D1's group 0 and V-D10's last group: raw compare, sentinel, last pixel. -/
def scanE (p : Nat) : Nat :=
  if p < 3 then 5 else if p < 5 then 7 else if p < 8 then 9
  else if p = 41 ∨ p = 42 then 0x80000000 else if p = 44 then 0xFFFFFFFF else if p = 45 ∨ p = 46 then 0xFFFFFFFE
  else if p = 47 then 1 else if p < 48 then 0 else if p = 255 then 8 else 7

theorem test_mask_raw_compare :
    dupMask (ctxOf scanE).scan 0 = 0xD6#8 ∧ dupMask (ctxOf scanE).scan 5 = 0x45#8 ∧
    dupMask (ctxOf scanE).scan 31 = 0x7F#8 := by decide +kernel

/-- V-C8, V-C6, V-C2. -/
theorem test_compactor :
    staged (pixload (ctxOf scanE).scan 5) (lutRead buildLut 0x45#8) (popcnt8 0x45#8) =
      [0x80000000#32, 0#32, 0xFFFFFFFF#32, 0xFFFFFFFE#32, 1#32] ∧
    staged (pixload (ctxOf scanD).scan 9) (lutRead buildLut 0x16#8) (popcnt8 0x16#8) = [73#32, 76#32, 78#32, 79#32, 80#32] ∧
    staged (pixload (ctxOf scanD).scan 9) (lutRead buildLut 0xFF#8) (popcnt8 0xFF#8) = [] := by decide +kernel

/-- V-G5: the group step of group 9 with COUNT = 72 over an all-ones RLE[1]. -/
def beforeG5 : Context :=
  { ctxOf scanD with
    out := Vector.replicate 256 0xEE#32
    rle := Vector.replicate 4 (Vector.replicate 8 0xFF#8)
    count := 72#9
    grp := 9#6
    phase := .run }

theorem test_group_step_g5 :
    let k := beforeG5.groupStep buildLut
    k.count = 77#9 ∧ k.grp = 10#6 ∧ blockWord k.rle[1] = 0xFFFFFFFFFFFF16FF#64 ∧
    blockWord k.rle[0] = 0xFFFFFFFFFFFFFFFF#64 ∧
    (k.out.toList.drop 71).take 7 = [0xEE#32, 73#32, 76#32, 78#32, 79#32, 80#32, 0xEE#32] := by decide +kernel

/-- V-G6: COUNT reaches 256, which needs bit 8. -/
theorem test_group_step_g6 :
    let k := ({ ctxOf (· + 1) with count := 248#9, grp := 31#6, phase := .run }).groupStep buildLut
    k.count = 256#9 ∧ k.grp = 32#6 ∧ k.rle[3][7] = 0x00#8 ∧ k.out[255] = 256#32 := by decide +kernel

/-! ### States for the commands and the port -/

/-- A context with SETUP done; its stores are the unspecified ones of reset. -/
def ready : Context := { Context.reset 0 0 with srcLen := 256#32, dstCap := 256#32 }

/-- Two contexts at BASE = 0x1000, as after reset and SETUP on both, with the schedule given. -/
def demo (inputs : List Event) : State :=
  { State.resetWith { accelEn := true, nctx := 2, base := 0x1000 } 0 inputs with ctxs := [ready, ready] }

/-- A write and a read at a byte address. -/
def wr (addr : Nat) (v : Word) : Access := { addr := addr, width := 4, dir := .write v }
def rd (addr : Nat) : Access := { addr := addr, width := 4, dir := .read }

/-- What is left to look at of an outcome: STATUS, the response and whether the table exists, for context c. -/
def seen (r : Result) (c : Nat) : Option (Word × Response × Bool) :=
  match r with
  | .next t => (t.ctxs[c]?).map fun k => (statusWord t.accelEn t.lutValid k, k.resp, t.lutValid)
  | _ => none

/-- The context c of an outcome. -/
def ctxAfter (r : Result) (c : Nat) : Option Context :=
  match r with
  | .next t => t.ctxs[c]?
  | _ => none

/-! ### The commands -/

/-- V-E7 and, without the capability, V-E11. -/
theorem test_lutbuild_status :
    seen (step (demo [.access (wr 0x1000 1#32)])) 0 = some (0x0000000D#32, .ok, true) ∧
    seen (step ({ demo [.access (wr 0x1000 1#32)] with accelEn := false })) 0 = some (0x00000001#32, .ok, false) := by
  decide +kernel

/-- V-E5: ENCODE straight after reset, as the step runs it (R253). -/
theorem test_encode_after_reset :
    seen (step (State.reset.withFetchWord 32 2)) 0 = some (0x00000318#32, .ok, false) := by decide +kernel

/-- V-E3, V-E4, V-E10, V-E9. -/
theorem test_encode_rejected_or_absent :
    seen (exec .encode ({ demo [] with ctxs := [{ ready with srcLen := 255#32 }] })) 0 =
      some (0x00000118#32, .ok, false) ∧
    seen (exec .encode ({ demo [] with ctxs := [{ ready with dstCap := 255#32 }] })) 0 =
      some (0x00000218#32, .ok, false) ∧
    seen (exec .encode ({ demo [] with accelEn := false, ctxs := [{ ready with srcLen := 100#32 }] })) 0 =
      some (0x00000110#32, .ok, false) ∧
    seen (exec .encode ({ demo [] with accelEn := false })) 0 = some (0x00000001#32, .ok, false) := by
  decide +kernel

/-- V-W11: a whole ENCODE of runs of three, through the step and the lazy build (V-E1's STATUS). -/
theorem test_encode_runs_of_three :
    let r := step ({ demo [.access (wr 0x1000 2#32)] with ctxs := [ctxOf (· / 3 % 4)] })
    seen r 0 = some (0x0000000F#32, .ok, true) ∧
    (ctxAfter r 0).map (fun k => (k.count, k.rle.toList.map blockWord, k.out.toList.take 5, k.out[84])) =
      some (85#9, [0x6DB6DB6DB6DB6DB7#64, 0xB6DB6DB6DB6DB6DB#64, 0xDB6DB6DB6DB6DB6D#64, 0x6DB6DB6DB6DB6DB6#64],
        [1#32, 2#32, 3#32, 0#32, 1#32], 1#32) := by
  decide +kernel

/-- V-E12, V-E14, V-E15 and P6 line 1: IllegalCommand is reported with response OK. -/
theorem test_illegal_command :
    seen (step (demo [.access (wr 0x1000 0#32)])) 0 = some (0x00000028#32, .ok, false) ∧
    seen (step (demo [.access (wr 0x1000 0x102#32)])) 0 = some (0x00000028#32, .ok, false) ∧
    seen (step (demo [.issue (wr 0x1000 0x80000001#32)])) 0 = some (0x00000028#32, .ok, false) := by
  decide +kernel

/-! ### The port -/

/-- R30: the write of LUT_IDX is masked, and the read is zero-extended. -/
theorem test_lut_idx_masked :
    (ctxAfter (step (demo [.access (wr 0x1014 0x12345616#32)])) 0).map (·.lutIdx) = some 0x16#8 ∧
    (ctxAfter (step ({ demo [.access (rd 0x2014)] with ctxs := [ready, { ready with lutIdx := 0x16#8 }] })) 1).map (·.resp) =
      some (.data 0x00000016#32) := by decide +kernel

/-- spec/95_test_vectors.md section 7, AccessError: ERROR and no more. -/
theorem test_access_errors :
    ∀ a ∈ [rd 0x1000, wr 0x1004 1#32, wr 0x1010 1#32, wr 0x1018 1#32, wr 0x1020 1#32, wr 0x1800 1#32, rd 0x101C,
        wr 0x1040 1#32, rd 0x1C00, rd 0x1402, ({ addr := 0x1000, width := 2, dir := .write 1#32 } : Access)],
      seen (step (demo [.access a])) 0 = some (0x00000008#32, .error, false) := by decide +kernel

/-- P5: the table built for context 0 shows in context 1's STATUS (0x0000000C), whose own record stays. -/
theorem test_table_is_shared :
    seen (step (demo [.access (wr 0x1000 1#32)])) 1 = some (0x0000000C#32, .none, true) := by decide +kernel

/-- R69: the running context's page is held; the other context's is not. -/
theorem test_hold :
    (ctxAfter (step ({ demo [.access (rd 0x1004)] with ctxs := [ready.startRun, ready] })) 0).map
      (fun k => (k.held, k.resp)) = some ([.access (rd 0x1004)], .none) ∧
    seen (step ({ demo [.access (rd 0x2004)] with ctxs := [ready.startRun, ready] })) 1 =
      some (0x00000008#32, .data 0x00000008#32, false) := by decide +kernel

/-- R131: of two waiting LUTBUILDs the first served builds, the second completes all the same. -/
theorem test_race :
    let w : Context := { ready with pending := some .lutbuild }
    let s : State := { demo [] with ctxs := [w, w] }
    seen (.next (s.builderStep 1)) 0 = some (0x0000000C#32, .none, true) ∧
    seen (.next ((s.builderStep 1).builderStep 0)) 0 = some (0x0000000D#32, .ok, true) := by decide +kernel

/-! ### Witnesses: every obligation's hypotheses can be met -/

/-- An access to offset off of context 0's page, in a state in which nothing holds it. -/
theorem presents (off width : Nat) (d : Direction) (h : off < 0x1000) :
    (demo [.access ⟨0x1000 + off, width, d⟩]).Presents ⟨0x1000 + off, width, d⟩ 0 off ready [] := by
  refine ⟨.inl rfl, (if_pos ?_).trans ?_, rfl, rfl⟩
  · change 0x1000 ≤ 0x1000 + off ∧ 0x1000 + off < 0x1000 + 0x1000 * 2
    omega
  · change some ((0x1000 + off - 0x1000) / 0x1000, (0x1000 + off - 0x1000) % 0x1000) = _
    have h1 : (0x1000 + off - 0x1000) / 0x1000 = 0 := by omega
    have h2 : (0x1000 + off - 0x1000) % 0x1000 = off := by omega
    rw [h1, h2]

theorem selected (inputs : List Event) : (demo inputs).Selected ready := ⟨rfl, rfl⟩

theorem runs (inputs : List Event) : (demo inputs).Runs ready :=
  ⟨selected inputs, rfl, by decide, rfl, by simp [demo, State.resetWith]⟩

theorem demo_inv (inputs : List Event) : (demo inputs).Inv := by
  have h : Context.Ok true false ready := by constructor <;> simp [ready, Context.reset, Context.busy]
  refine ⟨by simp [demo, State.resetWith], by simp [demo, State.resetWith], by simp [demo, State.resetWith],
    by simp [demo, State.resetWith], fun k hk => ?_⟩
  have hk : k = ready := by simpa [demo] using hk
  rw [hk]; exact h

/-- A context whose run has done 31 of its 32 groups. -/
@[irreducible] def late : Context := Context.groupSteps buildLut 31 ready.startRun

/-- Some n group steps, n being 31, so that no proof unfolds them. -/
theorem late_eq : ∃ n, n = 31 ∧ late = Context.groupSteps buildLut n ready.startRun := ⟨31, rfl, by unfold late; rfl⟩

theorem ready_start : ready.startRun.grp.toNat = 0 := rfl

theorem late_done : late.DoneUpTo 31 := by
  obtain ⟨n, hn, h⟩ := late_eq
  have h0 := Context.groupSteps_doneUpTo n ready.startRun (by rw [hn, ready_start]; decide) ready.startRun_doneUpTo
  rw [ready_start, Nat.zero_add] at h0
  rw [h, ← hn]
  exact h0

theorem late_grp : late.grp = 31#6 := by
  obtain ⟨n, hn, h⟩ := late_eq
  have h0 := Context.groupSteps_grp buildLut n ready.startRun (by rw [hn, ready_start]; decide)
  rw [ready_start, Nat.zero_add] at h0
  exact BitVec.eq_of_toNat_eq (by rw [h, h0, hn]; rfl)

theorem late_phase : late.phase = .run := by
  obtain ⟨n, -, h⟩ := late_eq
  rw [h, Context.groupSteps_phase]; rfl

theorem late_held : late.held = [] := by
  obtain ⟨n, -, h⟩ := late_eq
  rw [h, Context.groupSteps_held]; rfl

/-- Nothing but the run's own stores is changed: the record is the cleared one, and the declarations are good. -/
theorem late_rest :
    late.done = false ∧ late.accel = false ∧ late.err = 0#4 ∧ late.lenBad = false ∧ late.capBad = false ∧
      late.pending = none ∧ late.srcLen = 256#32 ∧ late.dstCap = 256#32 := by
  obtain ⟨n, -, h⟩ := late_eq
  rw [h, Context.groupSteps_done, Context.groupSteps_accel, Context.groupSteps_err, Context.groupSteps_lenBad,
    Context.groupSteps_capBad, Context.groupSteps_pending, Context.groupSteps_srcLen, Context.groupSteps_dstCap]
  exact ⟨rfl, rfl, rfl, rfl, rfl, rfl, rfl, rfl⟩

theorem late_ok : Context.Ok true true late := by
  have hc : late.count.toNat ≤ 248 := by rw [late_done.count]; exact keptOf_length_le _ 248
  have hg : late.grp.toNat = 31 := by rw [late_grp]; rfl
  have hh := late_held
  obtain ⟨hd, ha, he, hl, hb, hp, hs, hcap⟩ := late_rest
  have hr : late.rejects = false := (Context.rejects_eq_false _).2 ⟨hs, by rw [hcap]; decide⟩
  exact {
    count_le := by omega
    grp_le := by omega
    run_bound := fun _ => ⟨by omega, by omega⟩
    err_code := .inl he
    err_done := fun h => absurd he h
    accel_done := fun h => by rw [ha] at h; cases h
    pv_err := fun h => by rw [hl, hb] at h; simp at h
    run_table := fun _ => ⟨rfl, rfl⟩
    pending_idle := fun h => by rw [hp] at h; cases h
    busy_record := fun _ => ⟨hd, ha, he⟩
    run_valid := fun _ => hr
    idle_held := fun _ => hh }

/-- Two contexts one group step before the end of their runs. -/
def lateState (inputs : List Event) : State :=
  { demo inputs with lutValid := true, lut := buildLut, ctxs := [late, late] }

theorem lateState_inv (inputs : List Event) : (lateState inputs).Inv := by
  refine ⟨fun _ => rfl, fun _ => rfl, by simp [lateState, demo, State.resetWith],
    by simp [lateState, demo, State.resetWith], fun k hk => ?_⟩
  have hk : k = late := by simpa [lateState] using hk
  rw [hk]; exact late_ok

theorem lateState_partial (inputs : List Event) : (lateState inputs).PartialResults := by
  intro k hk
  have hk : k = late := by simpa [lateState] using hk
  rw [hk, Context.partial_iff]
  intro _
  rw [late_grp]; exact late_done

theorem witness_ExactlyTwoWordsAreCommands :
    (0x00000100#32).extractLsb' 8 24 ≠ 0#24 ∧
    ((0x00000003#32).extractLsb' 8 24 = 0#24 ∧ (0x00000003#32).extractLsb' 0 8 ≠ 0x01#8 ∧
      (0x00000003#32).extractLsb' 0 8 ≠ 0x02#8) := by decide

theorem witness_EncodedCommandsDecodeToThemselves : Instr.lutbuild.wf = true ∧ Instr.encode.wf = true := by decide

theorem witness_StepRunsDecodedCommand :
    let s := demo [.access (wr 0x2000 2#32)]
    s.inputs = .access (wr 0x2000 2#32) :: [] ∧ (wr 0x2000 2#32).width = 4 ∧ (wr 0x2000 2#32).addr % 4 = 0 ∧
      (wr 0x2000 2#32).dir = .write 2#32 ∧ s.locate (wr 0x2000 2#32).addr = some (1, 0x000) ∧
      s.ctxs[1]? = some ready ∧ ready.busy = false ∧ decode 2#32 = .ok .encode :=
  ⟨rfl, rfl, rfl, rfl, by decide, rfl, rfl, rfl⟩

/-- Also for a context in the middle of a run, which withFetchWord makes ready. -/
theorem witness_PlacedCommandRunsNext :
    (demo []).ctxs[(demo []).cur]? = some ready ∧ (demo []).base % 4 = 0 ∧
    (lateState []).ctxs[(lateState []).cur]? = some late ∧ (lateState []).base % 4 = 0 :=
  ⟨rfl, rfl, rfl, rfl⟩

/-- A selected context that does not exist, the last one that does, and a busy one. -/
theorem witness_CommandNeedsAContext :
    (let s : State := { demo [] with cur := 2 }; s.ctxs.length ≤ s.cur) ∧
    (let s : State := { demo [] with cur := 1 }; s.cur < s.ctxs.length) ∧
    (lateState []).ctxs[(lateState []).cur]? = some late ∧ late.busy = true :=
  ⟨by decide, by decide, rfl, by simp [Context.busy, late_phase]⟩

/-- Hypotheses of LutbuildCompletes and LutbuildFrame: a table not yet built, one built already, and no capability. -/
theorem witness_Lutbuild :
    (demo []).Selected ready ∧ ({ demo [] with lutValid := true }).Selected ready ∧
    ({ demo [] with accelEn := false }).Selected ready ∧ ∃ t, exec .lutbuild (demo []) = .next t :=
  ⟨⟨rfl, rfl⟩, ⟨rfl, rfl⟩, ⟨rfl, rfl⟩, _, exec_lutbuild (selected [])⟩

/-- Each condition alone at the value next to the good one, and both. -/
theorem witness_EncodeRejectsBadDeclarations :
    ∀ p ∈ [(255#32, 256#32), (257#32, 256#32), (256#32, 255#32), (0#32, 0#32)],
      ({ demo [] with ctxs := [{ ready with srcLen := p.1, dstCap := p.2 }] }).Selected
        { ready with srcLen := p.1, dstCap := p.2 } ∧ (p.1 ≠ 256#32 ∨ p.2.toNat < 256) := by
  intro p hp
  refine ⟨⟨rfl, rfl⟩, ?_⟩
  simp only [List.mem_cons, List.not_mem_nil, or_false] at hp
  rcases hp with rfl | rfl | rfl | rfl <;> decide

/-- The least capacity that is enough, and the largest. -/
theorem witness_EncodeWithoutCapability :
    ∀ v ∈ [256#32, 0xFFFFFFFF#32],
      ({ demo [] with accelEn := false, ctxs := [{ ready with dstCap := v }] }).Selected { ready with dstCap := v } ∧
      ready.srcLen = 256#32 ∧ 256 ≤ v.toNat := by
  intro v hv
  refine ⟨⟨rfl, rfl⟩, rfl, ?_⟩
  simp only [List.mem_cons, List.not_mem_nil, or_false] at hv
  rcases hv with rfl | rfl <;> decide

/-- The hypothesis of the statements about a full run (RleBytesAreGroupMasks among them): with the table still to be built, and with it there. -/
theorem witness_Runs :
    (demo []).Runs ready ∧ ({ demo [] with lutValid := true, lut := buildLut }).Runs ready :=
  ⟨runs [], ⟨⟨rfl, rfl⟩, rfl, by decide, rfl, fun _ => rfl⟩⟩

/-- Both clauses on ACCEL: a full run, and the two ways to end without one (bad declarations, no capability). -/
theorem witness_EncodeFrame :
    ((demo []).Selected ready ∧ ∃ t k', exec .encode (demo []) = .next t ∧ t.ctxs[0]? = some k' ∧ k'.accel = true) ∧
    (let bad : Context := { ready with srcLen := 255#32 }
     let s : State := { demo [] with ctxs := [bad] }
     s.Selected bad ∧ ∃ t k', exec .encode s = .next t ∧ t.ctxs[0]? = some k' ∧ k'.accel = false) ∧
    (let s : State := { demo [] with accelEn := false }
     s.Selected ready ∧ ∃ t k', exec .encode s = .next t ∧ t.ctxs[0]? = some k' ∧ k'.accel = false) := by
  refine ⟨⟨selected [], (demo []).buildStep.endCommand 0 (ready.accept.runAll (demo []).buildStep.lut), _,
    (exec_encode (selected [])).trans (by rw [encodeOn_runs _ (by decide) rfl]; rfl),
    buildStep_endCommand_ctx (s := demo []) (k₀ := ready) rfl _, by simp [Context.ended]⟩,
    ⟨⟨rfl, rfl⟩, _, _, exec_encode (k := { ready with srcLen := 255#32 }) ⟨rfl, rfl⟩, rfl, rfl⟩,
    ⟨⟨rfl, rfl⟩, _, _, exec_encode (k := ready) ⟨rfl, rfl⟩, rfl, rfl⟩⟩

/-- Two states that agree in what ENCODE reads and differ in OUT, COUNT and the table. -/
theorem witness_EncodeForgetsHistory :
    let k₂ : Context := { ready with out := Vector.replicate 256 7#32, count := 200#9, done := true }
    let s₂ : State := { demo [] with lutValid := true, lut := buildLut, ctxs := [k₂, late] }
    (demo []).Selected ready ∧ s₂.Selected k₂ ∧ ((demo []).lutValid = true → (demo []).lut = buildLut) ∧
      (s₂.lutValid = true → s₂.lut = buildLut) ∧ ready.scan = k₂.scan ∧ ready.srcLen = k₂.srcLen ∧
      ready.dstCap = k₂.dstCap ∧ (demo []).accelEn = s₂.accelEn :=
  ⟨selected [], ⟨rfl, rfl⟩, (runs []).table, fun _ => rfl, rfl, rfl, rfl, rfl⟩

/-- The premises on g and i at both ends: pixel 0, pixel 1, the first lane of group 1, and pixel 255. -/
theorem witness_MaskBitIsDuplicateFlag :
    (8 * (0 : Fin 32).val + (0 : Fin 8).val = 0) ∧ (8 * (0 : Fin 32).val + (1 : Fin 8).val = (0 : Fin 255).val + 1) ∧
    (8 * (1 : Fin 32).val + (0 : Fin 8).val = (7 : Fin 255).val + 1) ∧
    (8 * (31 : Fin 32).val + (7 : Fin 8).val = (254 : Fin 255).val + 1) := by decide

/-- A kept lane at either end. -/
theorem witness_StagedSlotsAreKeptPixels :
    (0x7F#8).getLsbD (7 : Fin 8).val = false ∧ (0xFE#8).getLsbD (0 : Fin 8).val = false := by decide

/-- Mask 0xFE keeps one lane: its entry 0 is a position, its entry 1 padding. -/
theorem witness_TableRowsListUnsetBits :
    (0 : Fin 8).val < 8 - popcount8 0xFE#8 ∧ 8 - popcount8 0xFE#8 ≤ (1 : Fin 8).val ∧
    (7 : Fin 8).val < 8 - popcount8 0x00#8 := by decide

/-- Hypotheses of GroupStepEffect and GroupStepBounds: the first group and the last, COUNT at its bound. -/
theorem witness_GroupStep :
    ready.startRun.grp.toNat = (0 : Fin 32).val ∧ ready.startRun.count.toNat ≤ 8 * (0 : Fin 32).val ∧
    ({ ready with count := 248#9, grp := 31#6 }).grp.toNat = (31 : Fin 32).val ∧
    ({ ready with count := 248#9, grp := 31#6 }).count.toNat ≤ 8 * (31 : Fin 32).val := by decide

theorem witness_BuiltTableIsImmutable :
    (∃ t, step (lateState [.sequencer 0]) = .next t) ∧ (lateState [.sequencer 0]).resetNext = false ∧
      (lateState [.sequencer 0]).lutValid = true :=
  ⟨⟨_, rfl⟩, rfl, rfl⟩

theorem witness_DisabledBlockNeverBuilds :
    let s : State := State.resetWith { accelEn := false, nctx := 1, base := 0 } 0 [.access (wr 0x000 1#32)]
    s.Inv ∧ (∃ t, step s = .next t) ∧ s.resetNext = false ∧ s.accelEn = false := by
  refine ⟨State.resetWith_inv _ _ _ (by decide) (by decide), ?_, rfl, rfl⟩
  rcases step_move (State.resetWith { accelEn := false, nctx := 1, base := 0 } 0 [.access (wr 0x000 1#32)]) with
    ⟨_, _, _, h⟩ | ⟨_, t, h, _⟩
  · exact ⟨_, h⟩
  · exact ⟨t, h⟩

/-- Both premises of ParametersConstantBetweenResets, and the first one alone for a reset that changes ACCEL_EN. -/
theorem witness_ParametersConstantBetweenResets :
    (∃ t, step (demo [.builder 0]) = .next t) ∧ (demo [.builder 0]).resetNext = false ∧
    (∃ t, step (demo [.reset false]) = .next t) :=
  ⟨⟨_, rfl⟩, rfl, ⟨_, rfl⟩⟩

/-- For the invariants that every step keeps: a state with two runs in progress, about to complete one. -/
theorem witness_invariants :
    (lateState [.sequencer 1]).Inv ∧ (lateState [.sequencer 1]).PartialResults ∧
      ∃ t, step (lateState [.sequencer 1]) = .next t :=
  ⟨lateState_inv _, lateState_partial _, _, rfl⟩

theorem witness_ReachableStatesMeetR47 :
    Params.wf { accelEn := true, nctx := 2, base := 0x1000 } = true ∧
      ∃ s, core.run 1 (State.resetWith { accelEn := true, nctx := 2, base := 0x1000 } 0 [.builder 1]) = .next s :=
  ⟨by decide, _, rfl⟩

theorem witness_ResetMeetsInvariant : Params.wf { accelEn := false, nctx := 3, base := 0x2000 } = true := by decide

/-- Hypotheses of CompletedRunIsScalarEncode and CompletionReleasesHeldAccesses. -/
theorem witness_CompletedRun :
    (lateState []).Inv ∧ (lateState []).PartialResults ∧ (lateState []).ctxs[1]? = some late ∧ late.phase = .run ∧
      late.grp = 31#6 :=
  ⟨lateState_inv _, lateState_partial _, rfl, late_phase, late_grp⟩

/-- A step of context 1's sequencer, seen from context 0; an access outside every page, seen from context 1; two states
that differ in context 1 only, seen from context 0, with an event for context 0 and one for context 1; and an empty
schedule with a run in progress. -/
theorem witness_ContextsDoNotInteract :
    (lateState [.sequencer 1]).resetNext = false ∧ (lateState [.sequencer 1]).target (.sequencer 1) ≠ some 0 ∧
    (∃ t, step (lateState [.sequencer 1]) = .next t) ∧
    (demo [.access (rd 0x3000)]).target (.access (rd 0x3000)) ≠ some 1 ∧
    (∀ c ∈ [0, 1],
      let s₁ := lateState [.sequencer c]
      let s₂ : State := { s₁ with ctxs := [late, ready] }
      SameShared s₁ s₂ ∧ s₁.ctxs[0]? = s₂.ctxs[0]? ∧ (∃ t, step s₁ = .next t) ∧ (∃ t, step s₂ = .next t) ∧
        s₁.target (.sequencer 0) = some 0) ∧
    (lateState []).inputs = [] ∧ late.busy = true := by
  refine ⟨rfl, by simp [State.target], ⟨_, rfl⟩, by decide, fun c _ => ?_, rfl, by simp [Context.busy, late_phase]⟩
  exact ⟨⟨rfl, rfl, rfl, rfl, rfl, rfl⟩, rfl, ⟨_, rfl⟩, ⟨_, rfl⟩, rfl⟩

/-- A context that waits for the builder. -/
def waiting : Context := { ready with pending := some .encode }

def waitState (inputs : List Event) : State := { demo inputs with ctxs := [ready, waiting] }

theorem waitState_inv (inputs : List Event) : (waitState inputs).Inv := by
  have h : Context.Ok true false ready := (demo_inv []).ctx_ok ready List.mem_cons_self
  have hw : Context.Ok true false waiting := by
    constructor <;> simp [waiting, ready, Context.reset, Context.busy]
    decide
  refine ⟨by simp [waitState, demo, State.resetWith], by simp [waitState, demo, State.resetWith],
    by simp [waitState, demo, State.resetWith], by simp [waitState, demo, State.resetWith], fun k hk => ?_⟩
  have hk : k = ready ∨ k = waiting := by simpa [waitState] using hk
  rcases hk with rfl | rfl
  · exact h
  · exact hw

/-- A step of a run's own sequencer and one of the other's, the builder's step for a request, and with an empty schedule
the step of the first context inside a command. -/
theorem witness_CommandsInProgressAdvance :
    (let s := lateState [.sequencer 1]
     s.Inv ∧ (∃ t, step s = .next t) ∧ s.resetNext = false ∧ s.ctxs[1]? = some late ∧ s.ctxs[0]? = some late ∧
       late.busy = true ∧ s.Drives 1 late ∧ ¬s.Drives 0 late) ∧
    (let s := waitState [.builder 1]
     s.Inv ∧ (∃ t, step s = .next t) ∧ s.resetNext = false ∧ s.ctxs[1]? = some waiting ∧ waiting.busy = true ∧
       s.Drives 1 waiting ∧ waiting.stepsLeft = 33) ∧
    (let s := waitState []
     s.Inv ∧ (∃ t, step s = .next t) ∧ s.resetNext = false ∧ s.Drives 1 waiting) := by
  refine ⟨⟨lateState_inv _, ⟨_, rfl⟩, rfl, rfl, rfl, by simp [Context.busy, late_phase], .inr (.inl ⟨rfl, late_phase⟩), ?_⟩,
    ⟨waitState_inv _, ⟨_, rfl⟩, rfl, rfl, rfl, .inl ⟨rfl, rfl⟩, rfl⟩, waitState_inv _, ⟨_, rfl⟩, rfl, .inr (.inr ⟨rfl, ?_⟩)⟩
  · simp [State.Drives, lateState, demo, State.resetWith]
  · decide

/-- Two different contexts, both running. -/
theorem witness_SequencerStepsCommute :
    (0 : Nat) ≠ 1 ∧ (lateState []).ctxs[0]? = some late ∧ (lateState []).ctxs[1]? = some late ∧ late.phase = .run :=
  ⟨by decide, rfl, rfl, late_phase⟩

theorem witness_RacingBuildsAgree :
    let ka : Context := { ready with pending := some .encode }
    let kb : Context := { ready with pending := some .lutbuild }
    let s : State := { demo [] with ctxs := [ka, kb] }
    (0 : Nat) ≠ 1 ∧ s.lutValid = false ∧ s.ctxs[0]? = some ka ∧ s.ctxs[1]? = some kb ∧ ka.pending.isSome = true ∧
      kb.pending.isSome = true :=
  ⟨by decide, rfl, rfl, rfl, rfl, rfl⟩

/-- The number of steps at both ends of its range, at the start of a run and one step before its end. -/
theorem witness_RunEndsAfterRemainingSteps :
    ready.startRun.phase = .run ∧ ready.startRun.grp.toNat < 32 ∧ 31 < 32 - ready.startRun.grp.toNat ∧
      32 = 32 - ready.startRun.grp.toNat ∧ late.phase = .run ∧ late.grp.toNat < 32 ∧ 0 < 32 - late.grp.toNat ∧
      1 = 32 - late.grp.toNat := by
  have hg : late.grp.toNat = 31 := by rw [late_grp]; rfl
  refine ⟨rfl, by decide, by decide, by decide, late_phase, ?_, ?_, ?_⟩ <;> rw [hg] <;> decide

/-- Hypotheses of the two statements that an issued command equals the whole one. -/
theorem witness_Issued :
    let s := demo []
    s.locate (wr 0x2000 2#32).addr = some (1, 0x000) ∧ (wr 0x2000 2#32).width = 4 ∧ (wr 0x2000 2#32).addr % 4 = 0 ∧
      (wr 0x2000 2#32).dir = .write (encode .encode) ∧ (wr 0x2000 1#32).dir = .write (encode .lutbuild) ∧
      s.ctxs[1]? = some ready ∧ ready.busy = false ∧ ready.rejects = false ∧ s.accelEn = true :=
  ⟨by decide, rfl, rfl, rfl, rfl, rfl, rfl, by decide, rfl⟩

/-- A builder event for a running context and for one that does not exist, a sequencer event for a context that waits for
the builder, and an empty schedule with two idle contexts. -/
theorem witness_StepsNotEnabledChangeNothing :
    ((lateState [.builder 0]).inputs = .builder 0 :: [] ∧ (lateState [.builder 0]).ctxs[0]? = some late ∧
      late.pending = none) ∧
    ((lateState [.builder 2]).inputs = .builder 2 :: [] ∧ (lateState [.builder 2]).ctxs[2]? = none) ∧
    ((waitState [.sequencer 1]).inputs = .sequencer 1 :: [] ∧ (waitState [.sequencer 1]).ctxs[1]? = some waiting ∧
      waiting.phase = .idle) ∧
    ((demo []).inputs = [] ∧ ∀ k ∈ (demo []).ctxs, k.busy = false) := by
  refine ⟨⟨rfl, rfl, late_rest.2.2.2.2.2.1⟩, ⟨rfl, rfl⟩, ⟨rfl, rfl, rfl⟩, rfl, fun k hk => ?_⟩
  have hk : k = ready := by simpa [demo] using hk
  rw [hk]; rfl

/-- A request that a step makes and one that was there before; a table built by the builder's step and one built by a
command taken whole. -/
theorem witness_TableIsBuiltOnlyOnRequest :
    (∃ t k', step (demo [.issue (wr 0x1000 1#32)]) = .next t ∧ t.ctxs[0]? = some k' ∧ k'.pending = some .lutbuild) ∧
    (∃ t, step (waitState [.sequencer 0]) = .next t ∧ t.ctxs[1]? = some waiting ∧ waiting.pending = some .encode) ∧
    (∃ t, step (waitState [.builder 1]) = .next t ∧ (waitState [.builder 1]).resetNext = false ∧
      t.lutValid ≠ (waitState [.builder 1]).lutValid) ∧
    (∃ t, step (demo [.access (wr 0x1000 1#32)]) = .next t ∧ (demo [.access (wr 0x1000 1#32)]).resetNext = false ∧
      t.lutValid ≠ (demo [.access (wr 0x1000 1#32)]).lutValid) := by
  obtain ⟨h1, h2⟩ := step_of_command (s := demo []) (a := wr 0x1000 1#32) (c := 0) (k := ready) (i := .lutbuild) []
    (by decide) rfl rfl rfl rfl rfl
  refine ⟨⟨_, _, h2, rfl, rfl⟩, ⟨_, rfl, rfl, rfl⟩, ⟨_, rfl, rfl, ?_⟩, ⟨_, h1.trans (exec_lutbuild ⟨rfl, rfl⟩), rfl, ?_⟩⟩
  · rw [(builderStep_self (k := waiting) (i := .encode) rfl rfl).2.2]; decide
  · rw [lutbuildOn_enabled _ _ rfl]; decide

/-- Each clause on why the table is not needed: bad declarations with ACCEL_EN = 1, and both commands with ACCEL_EN = 0. -/
theorem witness_IssuedCommandWithoutTableEqualsWhole :
    (let bad : Context := { ready with dstCap := 255#32 }
     let s : State := { demo [] with ctxs := [ready, bad] }
     s.locate (wr 0x2000 2#32).addr = some (1, 0x000) ∧ (wr 0x2000 2#32).width = 4 ∧ (wr 0x2000 2#32).addr % 4 = 0 ∧
       (wr 0x2000 2#32).dir = .write (encode .encode) ∧ s.ctxs[1]? = some bad ∧ bad.busy = false ∧
       bad.rejects = true) ∧
    (let s : State := { demo [] with accelEn := false }
     s.locate (wr 0x2000 2#32).addr = some (1, 0x000) ∧ s.locate (wr 0x2000 1#32).addr = some (1, 0x000) ∧
       (wr 0x2000 2#32).dir = .write (encode .encode) ∧ (wr 0x2000 1#32).dir = .write (encode .lutbuild) ∧
       s.ctxs[1]? = some ready ∧ ready.busy = false ∧ s.accelEn = false) := by
  refine ⟨⟨by decide, rfl, rfl, rfl, rfl, rfl, by decide⟩, by decide, by decide, rfl, rfl, rfl, rfl, rfl⟩

/-- The first and the last register of each kind, and an aligned offset that is a register's. -/
theorem witness_RegisterMapAsTabled :
    Reg.offset (.rleHi 3) = some 0x03C ∧ Reg.offset (.scan 0) = some 0x400 ∧ Reg.offset (.scan 255) = some 0x7FC ∧
    Reg.offset (.out 255) = some 0xBFC ∧ 0xBFC % 4 = 0 ∧ regAt 0xBFC ≠ .reserved ∧ regAt 0x018 ≠ .reserved := by
  decide

/-- The last byte of the last page, the byte before the first page and the byte after the last. -/
theorem witness_PagesAsPlaced :
    1 < (demo []).ctxs.length ∧ 0xFFF < pageBytes ∧ 0xFFF < (demo []).base ∧
    (demo []).base + 0x1000 * (demo []).ctxs.length ≤ 0x3000 := by decide

/-- Every writable register's offset, SCAN at both ends. -/
theorem witness_WritesStoreTheNamedRegister :
    ∀ off ∈ [0x008, 0x00C, 0x014, 0x400, 0x7FC],
      (demo [.access (wr (0x1000 + off) 5#32)]).Presents (wr (0x1000 + off) 5#32) 0 off ready [] ∧
      (wr (0x1000 + off) 5#32).width = 4 ∧ (0x1000 + off) % 4 = 0 := by
  intro off h
  have : off < 0x1000 ∧ (0x1000 + off) % 4 = 0 := by revert off; decide
  exact ⟨presents off 4 _ this.1, rfl, this.2⟩

/-- Every readable register's offset, the indexed ones at both ends. -/
theorem witness_ReadsReturnTheNamedRegister :
    ∀ off ∈ [0x004, 0x008, 0x00C, 0x010, 0x014, 0x018, 0x020, 0x038, 0x024, 0x03C, 0x400, 0x7FC, 0x800, 0xBFC],
      (demo [.access (rd (0x1000 + off))]).Presents (rd (0x1000 + off)) 0 off ready [] ∧
      (rd (0x1000 + off)).width = 4 ∧ (0x1000 + off) % 4 = 0 := by
  intro off h
  have : off < 0x1000 ∧ (0x1000 + off) % 4 = 0 := by revert off; decide
  exact ⟨presents off 4 _ this.1, rfl, this.2⟩

/-- Each clause at the ends of its range. -/
theorem witness_IllegalAccessesGetErrorOnly :
    ((demo [.access ⟨0x1400, 2, .read⟩]).Presents ⟨0x1400, 2, .read⟩ 0 0x400 ready [] ∧ (2 : Nat) ≠ 4) ∧
    ((demo [.access ⟨0x1402, 4, .read⟩]).Presents ⟨0x1402, 4, .read⟩ 0 0x402 ready [] ∧ 0x1402 % 4 ≠ 0) ∧
    (∀ off ∈ [0x01C, 0x040, 0x3FC, 0xC00, 0xFFC],
      (demo [.access (rd (0x1000 + off))]).Presents (rd (0x1000 + off)) 0 off ready []) ∧
    (demo [.access (rd 0x1000)]).Presents (rd 0x1000) 0 0x000 ready [] ∧
    (∀ off ∈ [0x004, 0x010, 0x018, 0x020, 0x03C, 0x800, 0xBFC],
      (demo [.access (wr (0x1000 + off) 5#32)]).Presents (wr (0x1000 + off) 5#32) 0 off ready []) := by
  refine ⟨⟨presents 0x400 2 _ (by decide), by decide⟩, ⟨presents 0x402 4 _ (by decide), by decide⟩, fun off h => ?_,
    presents 0x000 4 _ (by decide), fun off h => ?_⟩
  · exact presents off 4 _ (by revert off; decide)
  · exact presents off 4 _ (by revert off; decide)

theorem witness_IllegalCommandRecordsCodeTwo :
    (demo [.access (wr 0x1000 3#32)]).Presents (wr 0x1000 3#32) 0 0x000 ready [] ∧ (wr 0x1000 3#32).width = 4 ∧
      (wr 0x1000 3#32).addr % 4 = 0 ∧ (wr 0x1000 3#32).dir = .write 3#32 ∧ (3#32 : Word) ≠ 0x00000001#32 ∧
      (3#32 : Word) ≠ 0x00000002#32 :=
  ⟨presents 0x000 4 _ (by decide), rfl, rfl, rfl, by decide, by decide⟩

/-- A running context and one that waits for the builder. -/
theorem witness_BusyContextHoldsAccesses :
    let kb : Context := { ready with pending := some .lutbuild }
    let s : State := { demo [.access (rd 0x1000)] with ctxs := [ready.startRun, kb] }
    s.inputs = .access (rd 0x1000) :: [] ∧ s.locate (rd 0x1000).addr = some (0, 0x000) ∧
      s.locate (rd 0x2FFC).addr = some (1, 0xFFC) ∧ s.ctxs[0]? = some ready.startRun ∧ s.ctxs[1]? = some kb ∧
      ready.startRun.busy = true ∧ kb.busy = true :=
  ⟨rfl, by decide, by decide, rfl, rfl, rfl, rfl⟩

/-- The byte before the first page and the byte after the last. -/
theorem witness_AccessOutsidePagesChangesNothing :
    (demo [.access (rd 0xFFC)]).inputs = .access (rd 0xFFC) :: [] ∧ (rd 0xFFC).addr < (demo []).base ∧
    (demo [.issue (rd 0x3000)]).inputs = .issue (rd 0x3000) :: [] ∧
    (demo []).base + 0x1000 * (demo []).ctxs.length ≤ (rd 0x3000).addr :=
  ⟨rfl, by decide, rfl, by decide⟩

/-- A reset in the middle of two runs. -/
theorem witness_ResetRestoresEveryContext :
    (lateState [.reset false]).inputs = .reset false :: [] ∧ late ∈ (lateState [.reset false]).ctxs :=
  ⟨rfl, List.mem_cons_self⟩

/-- Both values of LUT_VALID; the row with eight entries and a row of padding. -/
theorem witness_LutWindowShowsSelectedRow :
    (lateState []).lutValid = true ∧ (demo []).lutValid = false ∧
    lutWindow true buildLut 0x00#8 = 0x76543210#32 ∧ lutWindow true buildLut 0xFF#8 = 0x00000000#32 := by
  refine ⟨rfl, rfl, ?_, ?_⟩ <;> decide +kernel

end Sys2Proof.Tests
end

/-! The parameters between resets (spec/00_scope.md R4, spec/10_state.md R21, R35), the invariant right after
reset (R46, R47), and the two ways of taking a command (R9): issued and served by the agents, or taken whole. -/

namespace Sys2Proof.Machine

open Sys2Proof

/-! ### Reset (R46) -/

/-- Legal parameters, clause by clause (R4). -/
theorem params_wf_iff (p : Params) : p.wf = true ↔ 1 ≤ p.nctx ∧ p.base % pageBytes = 0 := by
  simp [Params.wf, Params.nctxOk, Params.baseOk]

/-- Settles O32: `State.reset` is the reset of a block with the platform's parameters, which are legal. -/
theorem resetMeetsInvariant : Obligations.ResetMeetsInvariant := by
  have inv_of_wf : ∀ (p : Params) (r : Nat) (inputs : List Event), p.wf = true →
      (State.resetWith p r inputs).Inv := by
    intro p r inputs hp
    obtain ⟨hn, hb⟩ := (params_wf_iff p).mp hp
    exact State.resetWith_inv p r inputs hn hb
  exact ⟨inv_of_wf Config.platform 0 [] (by decide), inv_of_wf⟩

/-! ### What no move changes (R4, R21) -/

/-- Selecting a context first makes no difference to what is the same outside it. -/
theorem SameOutside.of_select {s t : State} {c d : Nat} (h : SameOutside c { s with cur := d } t) :
    SameOutside c s t :=
  ⟨h.accelEn, h.base, h.resets, h.nctx, h.others⟩

theorem lutbuildOn_same (s : State) (c : Nat) (k : Context) : SameOutside c s (s.lutbuildOn c k) := by
  unfold State.lutbuildOn
  split
  · exact buildStep_endCommand_same s c _
  · exact (endCommand_same s c _).toSameOutside

theorem encodeOn_same (s : State) (c : Nat) (k : Context) : SameOutside c s (s.encodeOn c k) := by
  unfold State.encodeOn
  split
  · exact (endCommand_same s c _).toSameOutside
  · split
    · exact (endCommand_same s c _).toSameOutside
    · exact buildStep_endCommand_same s c _

theorem issueOn_same (s : State) (c : Nat) (k : Context) (i : Instr) : SameOutside c s (s.issueOn c k i) := by
  have waits : ∀ k', SameOutside c s (s.putCtx c k') := fun k' => (putCtx_same s c k').toSameOutside
  have ends : ∀ k', SameOutside c s (s.endCommand c k') := fun k' => (endCommand_same s c k').toSameOutside
  cases i with
  | lutbuild =>
    simp only [State.issueOn]
    split
    · exact waits _
    · exact ends _
  | encode =>
    simp only [State.issueOn]
    split
    · exact ends _
    · split
      · exact waits _
      · exact ends _

/-- Building the table and then replacing context c changes nothing else than these. -/
theorem buildStep_putCtx_same (s : State) (c : Nat) (k : Context) : SameOutside c s (s.buildStep.putCtx c k) :=
  have h := putCtx_same s.buildStep c k
  ⟨by simp, by simp, by simp, by simp, fun d hd => by rw [h.others d hd, State.buildStep_ctxs]⟩

/-- A move changes at most the table, the selection, the schedule and one context. -/
theorem Move.sameOutside {s t : State} (h : Move s t) : ∃ c, SameOutside c s t := by
  cases h with
  | stay => exact ⟨0, (SameButContext.refl 0 s).toSameOutside⟩
  | hold c k e => exact ⟨c, (putCtx_same s c _).toSameOutside⟩
  | answer c k r => exact ⟨c, (putCtx_same s c _).toSameOutside⟩
  | write c k k' v r => exact ⟨c, (putCtx_same s c _).toSameOutside⟩
  | illegal c k => exact ⟨c, .of_select (endCommand_same _ c _).toSameOutside⟩
  | lutbuild c k => exact ⟨c, .of_select (lutbuildOn_same _ c k)⟩
  | encode c k => exact ⟨c, .of_select (encodeOn_same _ c k)⟩
  | issue c k i => exact ⟨c, .of_select (issueOn_same _ c k i)⟩
  | buildEnd c k => exact ⟨c, buildStep_endCommand_same s c _⟩
  | buildRun c k => exact ⟨c, buildStep_putCtx_same s c _⟩
  | group c k => exact ⟨c, (putCtx_same s c _).toSameOutside⟩
  | complete c k => exact ⟨c, (endCommand_same s c _).toSameOutside⟩

/-- A reset leaves the number of contexts (R4). -/
theorem applyReset_nctx (s : State) (accelEn : Bool) : (s.applyReset accelEn).ctxs.length = s.ctxs.length := by
  simp [State.applyReset, State.resetWith]

/-- Settles O29: a reset keeps BASE and the number of contexts, and every other step is a move, which keeps all four. -/
theorem parametersConstantBetweenResets : Obligations.ParametersConstantBetweenResets := by
  intro s t hst
  rcases step_move s with ⟨accelEn, rest, hin, hr⟩ | ⟨-, u, hu, hm⟩
  · cases hr.symm.trans hst
    exact ⟨fun hn => by simp [State.resetNext, hin] at hn, rfl, applyReset_nctx s.dropEvent accelEn⟩
  · cases hu.symm.trans hst
    obtain ⟨c, hs⟩ := hm.sameOutside
    exact ⟨fun _ => ⟨hs.accelEn, hs.resets⟩, hs.base, hs.nctx⟩

/-! ### A command that waits for the builder (R111, R115) -/

/-- The state once CMD of context c has been written: c is selected, and these events are still to come. -/
def State.atCmd (s : State) (c : Nat) (inputs : List Event) : State := { s with cur := c, inputs := inputs }

@[simp] theorem State.atCmd_accelEn (s : State) (c : Nat) (inputs : List Event) :
    (s.atCmd c inputs).accelEn = s.accelEn := rfl
@[simp] theorem State.atCmd_ctxs (s : State) (c : Nat) (inputs : List Event) :
    (s.atCmd c inputs).ctxs = s.ctxs := rfl
@[simp] theorem State.atCmd_cur (s : State) (c : Nat) (inputs : List Event) : (s.atCmd c inputs).cur = c := rfl
@[simp] theorem State.atCmd_lut (s : State) (c : Nat) (inputs : List Event) : (s.atCmd c inputs).lut = s.lut := rfl

/-- The build step neither reads nor writes the selection and the schedule. -/
theorem buildStep_atCmd (s : State) (c : Nat) (inputs : List Event) :
    (s.atCmd c inputs).buildStep = s.buildStep.atCmd c inputs := by
  cases hv : s.lutValid <;> simp [State.buildStep, State.atCmd, hv]

/-- The build step neither reads nor writes a context. -/
theorem buildStep_putCtx (s : State) (c : Nat) (k : Context) : (s.putCtx c k).buildStep = s.buildStep.putCtx c k := by
  cases hv : s.lutValid <;> simp [State.buildStep, State.putCtx, hv]

/-- A later content of context c replaces an earlier one. -/
theorem putCtx_putCtx (s : State) (c : Nat) (k k' : Context) : (s.putCtx c k).putCtx c k' = s.putCtx c k' := by
  simp [State.putCtx]

theorem putCtx_endCommand (s : State) (c : Nat) (k k' : Context) :
    (s.putCtx c k).endCommand c k' = s.endCommand c k' := by
  simp [State.endCommand, putCtx_putCtx]

/-- A context whose command i is accepted and waits for the builder (R110, R132). -/
def Context.waiting (k : Context) (i : Instr) : Context := { k.accept with pending := some i }

/-- What issuing an enabled command that passes validation leaves. -/
theorem issueOn_waits {s : State} (c : Nat) (k : Context) {i : Instr} (ha : s.accelEn = true)
    (hv : i = .encode → k.rejects = false) : s.issueOn c k i = s.putCtx c (k.waiting i) := by
  cases i with
  | lutbuild => simp [State.issueOn, Context.waiting, ha]
  | encode => simp [State.issueOn, Context.waiting, ha, hv rfl]

/-- The builder's step for a waiting LUTBUILD ends the command (R111). -/
theorem builderStep_waiting_lutbuild {s : State} {c : Nat} {k : Context} (hk : s.ctxs[c]? = some k) :
    (s.putCtx c (k.waiting .lutbuild)).builderStep c = s.buildStep.endCommand c { k.accept with done := true } := by
  have hc : (s.putCtx c (k.waiting .lutbuild)).ctxs[c]? = some (k.waiting .lutbuild) := set_getElem?_self hk _
  simp only [State.builderStep, hc, buildStep_putCtx, putCtx_endCommand]
  rfl

/-- The builder's step for a waiting ENCODE starts the run (R115, R116). -/
theorem builderStep_waiting_encode {s : State} {c : Nat} {k : Context} (hk : s.ctxs[c]? = some k)
    (hp : k.pending = none) :
    (s.putCtx c (k.waiting .encode)).builderStep c = s.buildStep.putCtx c k.accept.startRun := by
  have hc : (s.putCtx c (k.waiting .encode)).ctxs[c]? = some (k.waiting .encode) := set_getElem?_self hk _
  have hs : { k.waiting .encode with pending := none }.startRun = k.accept.startRun := by
    simp [Context.waiting, Context.startRun, hp]
  simp only [State.builderStep, hc, buildStep_putCtx, putCtx_putCtx]
  exact congrArg (s.buildStep.putCtx c) hs

/-! ### The two ways of taking a command (R9) -/

/-- The step that takes a command whole is the command's meaning. -/
theorem State.Commands.step_whole {s : State} {a : Access} {c : Nat} {k : Context} {i : Instr}
    (h : s.Commands a c k i) (rest : List Event) :
    step { s with inputs := .access a :: rest } = exec i (s.atCmd c rest) :=
  (step_of_command rest h.place h.width h.aligned h.word h.ctx h.idle).1

/-- The context of a command is the selected one, in no command. -/
theorem State.Commands.selected {s : State} {a : Access} {c : Nat} {k : Context} {i : Instr} (h : s.Commands a c k i)
    (rest : List Event) : (s.atCmd c rest).Selected k :=
  ⟨h.ctx, h.idle⟩

/-- The step that issues a command leaves its context waiting for the builder. -/
theorem State.Commands.step_issue {s : State} {a : Access} {c : Nat} {k : Context} {i : Instr}
    (h : s.Commands a c k i) (rest : List Event) :
    step { s with inputs := .issue a :: rest } = .next ((s.atCmd c rest).putCtx c (k.waiting i)) := by
  rw [← issueOn_waits c k (by simpa using h.enabled) h.valid]
  exact (step_of_command rest h.place h.width h.aligned h.word h.ctx h.idle).2

/-- The issue of a command and the builder's step for it, before n more steps. -/
theorem State.Commands.run_issue_builder {s t : State} {a : Access} {c : Nat} {k : Context} {i : Instr}
    (h : s.Commands a c k i) (n : Nat) (rest : List Event)
    (ht : ((s.atCmd c rest).putCtx c (k.waiting i)).builderStep c = t) :
    core.run (n + 2) { s with inputs := .issue a :: .builder c :: rest } = core.run n t := by
  subst ht
  rw [run_succ (n + 1) (h.step_issue (.builder c :: rest))]
  exact run_succ n rfl

/-- The 32 steps of the sequencer of a context whose run has just started are the whole run and its end (R116, R169). -/
theorem run_of_startRun {s : State} {c : Nat} {k₀ : Context} (hk : s.ctxs[c]? = some k₀) (k : Context)
    (rest : List Event) :
    core.run 32 ((s.atCmd c (List.replicate 32 (.sequencer c) ++ rest)).putCtx c k.startRun) =
      .next ((s.atCmd c rest).endCommand c (k.runAll s.lut)) := by
  obtain ⟨n, rfl, hrun⟩ := k.runAll_eq s.lut
  rw [hrun, ← putCtx_endCommand (s.atCmd c rest) c k.startRun]
  exact run_to_end 31 ((s.atCmd c rest).putCtx c k.startRun) c k.startRun rest (set_getElem?_self hk _) rfl rfl

/-- Settles O43: the issue leaves the request, and the builder's step for it ends the command as taken whole. -/
theorem issuedLutbuildEqualsWholeLutbuild : Obligations.IssuedLutbuildEqualsWholeLutbuild := by
  intro s a c k rest hplace hwidth halign hword hk hb ha
  have hcmd : s.Commands a c k .lutbuild := ⟨hplace, hwidth, halign, hword, hk, hb, ha, nofun⟩
  have hwhole : step { s with inputs := .access a :: rest } =
      .next ((s.atCmd c rest).buildStep.endCommand c { k.accept with done := true }) := by
    rw [hcmd.step_whole, exec_lutbuild (hcmd.selected rest), State.atCmd_cur,
      lutbuildOn_enabled c k (by simpa using ha)]
  rw [hwhole]
  exact hcmd.run_issue_builder 0 rest (builderStep_waiting_lutbuild (s := s.atCmd c rest) hk)

/-- Settles O42: the issue leaves the request, the builder's step starts the run on the built table, and the sequencer's
32 steps are the run's group steps and completion. -/
theorem issuedEncodeEqualsWholeEncode : Obligations.IssuedEncodeEqualsWholeEncode := by
  intro s a c k rest hplace hwidth halign hword hk hb hv ha
  have hcmd : s.Commands a c k .encode := ⟨hplace, hwidth, halign, hword, hk, hb, ha, fun _ => hv⟩
  have hkb : s.buildStep.ctxs[c]? = some k := by rw [State.buildStep_ctxs, hk]
  have hwhole : step { s with inputs := .access a :: rest } =
      .next ((s.buildStep.atCmd c rest).endCommand c (k.accept.runAll s.buildStep.lut)) := by
    rw [hcmd.step_whole, exec_encode (hcmd.selected rest), State.atCmd_cur, encodeOn_runs c hv (by simpa using ha),
      buildStep_atCmd, State.atCmd_lut]
  have hstart := builderStep_waiting_encode (s := s.atCmd c (List.replicate 32 (.sequencer c) ++ rest)) hk
    (idle_of_not_busy hb).2
  rw [buildStep_atCmd] at hstart
  rw [hwhole]
  exact (hcmd.run_issue_builder 32 _ hstart).trans (run_of_startRun hkb k.accept rest)

end Sys2Proof.Machine

/-! The state and its registers (spec/10_state.md): the invariant under every step (R47), what an access of a register
does (R118, R119), reset (R46), STATUS and LUT_ROW bit by bit (R31, R137), and the independence of the contexts
(R70). -/

namespace Sys2Proof.Machine

open Sys2Proof

/-! ### The invariant of one context (R47) -/

/-- A context in no command is in neither of the conditions under which its declarations matter. -/
theorem not_encoding_of_not_busy {k : Context} (hb : k.busy = false) :
    ¬ (k.phase = .run ∨ k.pending = some .encode) := by
  obtain ⟨hi, hp⟩ := idle_of_not_busy hb
  simp [hi, hp]

/-- The port's response is in no clause of the invariant (R77). -/
theorem Context.Ok.respond {a v : Bool} {k : Context} (h : Context.Ok a v k) (r : Response) :
    Context.Ok a v (k.respond r) := { h with }

/-- A busy context may hold one more access (R69). -/
theorem Context.Ok.hold {a v : Bool} {k : Context} (h : Context.Ok a v k) (hb : k.busy = true) (e : Event) :
    Context.Ok a v { k with held := k.held ++ [e] } :=
  { h with idle_held := fun hb' => Bool.noConfusion (hb.symm.trans hb') }

/-- A register write to a context in no command: of what it can store, only SRC_LEN and DST_CAP are in a clause of the
invariant, and that clause is about an ENCODE in progress (R118, R113). -/
theorem Context.Ok.writeReg {a v : Bool} {k k' : Context} {w : Word} {r : Reg} (h : Context.Ok a v k)
    (hb : k.busy = false) (hw : k.writeReg w r = some k') : Context.Ok a v k' := by
  have hn := not_encoding_of_not_busy hb
  cases r with
  | srcLen | dstCap | lutIdx | scan =>
    cases hw
    exact { h with run_valid := fun he => absurd he hn }
  | cmd | status | count | lutRow | rleLo | rleHi | out | reserved => cases hw

/-- A command that was accepted and waits for the builder (R110, R113, R132). -/
theorem Context.Ok.waiting {v : Bool} {k : Context} {i : Instr} (h : Context.Ok true v k) (hb : k.busy = false)
    (hv : i = .encode → k.rejects = false) : Context.Ok true v (k.waiting i) := by
  obtain ⟨hi, -⟩ := idle_of_not_busy hb
  have hi' : (k.waiting i).phase ≠ .run := fun hr => nomatch hi.symm.trans hr
  exact {
    count_le := h.count_le
    grp_le := h.grp_le
    run_bound := fun hr => absurd hr hi'
    err_code := .inl rfl
    err_done := fun _ => ⟨rfl, rfl⟩
    accel_done := nofun
    pv_err := nofun
    run_table := fun hr => absurd hr hi'
    pending_idle := fun _ => ⟨rfl, hi⟩
    busy_record := fun _ => ⟨rfl, rfl, rfl⟩
    run_valid := fun he => hv (Option.some.inj (he.resolve_left hi'))
    idle_held := fun hb' => by simp [Context.busy, Context.waiting] at hb' }

/-- A command that ends with DONE and no error leaves a good context (R122). -/
theorem Context.ok_ended {a v : Bool} {k : Context} (hi : k.phase = .idle) (hc : k.count.toNat ≤ 256)
    (hg : k.grp.toNat ≤ 32) (hd : k.done = true) (he : k.err = 0#4) (hpv : k.lenBad = false ∧ k.capBad = false) :
    Context.Ok a v k.ended := by
  constructor <;> simp [hi, hc, hg, hd, he, hpv]

/-- The builder's step for a waiting command: LUTBUILD ends, ENCODE's run starts from 0 (R111, R116). -/
theorem Context.Ok.served {a v : Bool} {k : Context} {i : Instr} (h : Context.Ok a v k) (hp : k.pending = some i) :
    Context.Ok a true (k.served i) := by
  obtain ⟨ha, hi⟩ := h.pending_idle (by simp [hp])
  obtain ⟨hd, hac, he⟩ := h.busy_record (by simp [Context.busy, hp])
  cases i with
  | lutbuild => exact Context.ok_ended hi h.count_le h.grp_le rfl he (h.pv_zero he)
  | encode =>
    exact {
      count_le := Nat.zero_le _
      grp_le := Nat.zero_le _
      run_bound := fun _ => by simp [Context.served]
      err_code := h.err_code
      err_done := h.err_done
      accel_done := h.accel_done
      pv_err := h.pv_err
      run_table := fun _ => ⟨rfl, ha⟩
      pending_idle := nofun
      busy_record := fun _ => ⟨hd, hac, he⟩
      run_valid := fun _ => h.run_valid (.inr hp)
      idle_held := nofun }

/-- A group step of a run keeps COUNT within 8 per group and GRP within 32 (R165, R168). -/
theorem Context.Ok.groupStep_bounds {a v : Bool} {k : Context} (h : Context.Ok a v k) (hr : k.phase = .run)
    (lut : Table) :
    (k.groupStep lut).count.toNat ≤ 8 * (k.groupStep lut).grp.toNat ∧ (k.groupStep lut).grp.toNat ≤ 32 := by
  obtain ⟨hc, hg⟩ := h.run_bound hr
  have hg1 := Context.groupStep_grp lut k hg
  exact ⟨Context.groupStep_bound lut k hg hc, by omega⟩

/-- A group step that is not the last (R161, R168). -/
theorem Context.Ok.groupStep {a v : Bool} {k : Context} (h : Context.Ok a v k) (hr : k.phase = .run) (lut : Table)
    (hlast : (k.groupStep lut).grp.toNat < 32) : Context.Ok a v (k.groupStep lut) := by
  obtain ⟨hc, hg⟩ := h.groupStep_bounds hr lut
  exact { h with
    count_le := by omega
    grp_le := hg
    run_bound := fun _ => ⟨hc, hlast⟩ }

/-- The last group step of a run, with its completion (R169). -/
theorem Context.Ok.completeRun {a v : Bool} {k : Context} (h : Context.Ok a v k) (hr : k.phase = .run)
    (lut : Table) : Context.Ok a v (k.groupStep lut).completeRun.ended := by
  obtain ⟨hc, hg⟩ := h.groupStep_bounds hr lut
  obtain ⟨-, -, he⟩ := h.busy_record (by simp [Context.busy, hr])
  have hc256 : (k.groupStep lut).count.toNat ≤ 256 := by omega
  exact Context.ok_ended rfl hc256 hg rfl he (h.pv_zero he)

/-! ### The invariant of the machine under every move (R47) -/

theorem State.Inv.ok_of_ctx {s : State} (h : s.Inv) {c : Nat} {k : Context} (hk : s.ctxs[c]? = some k) :
    Context.Ok s.accelEn s.lutValid k := h.ctx_ok k (List.mem_of_getElem? hk)

/-- Replacing a context by a good one keeps the invariant. -/
theorem State.Inv.putCtx {s : State} (h : s.Inv) (c : Nat) {k : Context} (hk : Context.Ok s.accelEn s.lutValid k) :
    (s.putCtx c k).Inv := h.set c k hk s.inputs s.cur h.cur_lt

/-- Building the table and then ending a command of context c, on an enabled block. -/
theorem State.Inv.build_endCommand {s : State} (h : s.Inv) (ha : s.accelEn = true) (c : Nat) {k : Context}
    (hk : Context.Ok true true k.ended) : (s.buildStep.endCommand c k).Inv :=
  (h.build ha).endCommand c k (by simpa [ha] using hk)

theorem State.Inv.lutbuildOn {s : State} (h : s.Inv) {c : Nat} {k : Context} (hk : Context.Ok s.accelEn s.lutValid k)
    (hb : k.busy = false) : (s.lutbuildOn c k).Inv := by
  cases ha : s.accelEn with
  | false => rw [lutbuildOn_disabled c k ha]; exact h.endCommand c _ (hk.done hb)
  | true =>
    rw [lutbuildOn_enabled c k ha]
    have hk' := (hk.done hb).build
    exact h.build_endCommand ha c (by simpa [ha] using hk')

theorem State.Inv.encodeOn {s : State} (h : s.Inv) {c : Nat} {k : Context} (hk : Context.Ok s.accelEn s.lutValid k)
    (hb : k.busy = false) : (s.encodeOn c k).Inv := by
  cases hv : k.rejects with
  | true => rw [encodeOn_rejects c hv]; exact h.endCommand c _ (hk.rejected hb)
  | false =>
    cases ha : s.accelEn with
    | false => rw [encodeOn_disabled c hv ha]; exact h.endCommand c _ (hk.done hb)
    | true =>
      rw [encodeOn_runs c hv ha, s.buildStep_lut_eq h.table]
      exact h.build_endCommand ha c (Context.ok_run true true k)

/-- An issued LUTBUILD that needs no table has ended as if taken whole (R111). -/
theorem issueOn_lutbuild_of_not_passes {s : State} (c : Nat) {k : Context} (hp : ¬ s.Passes k .lutbuild) :
    s.issueOn c k .lutbuild = s.lutbuildOn c k := by
  have ha : s.accelEn = false := by simpa [State.Passes] using hp
  rw [lutbuildOn_disabled c k ha]
  simp [State.issueOn, ha]

/-- An issued ENCODE that needs no table has ended as if taken whole (R113, R114). -/
theorem issueOn_encode_of_not_passes {s : State} (c : Nat) {k : Context} (hp : ¬ s.Passes k .encode) :
    s.issueOn c k .encode = s.encodeOn c k := by
  cases hv : k.rejects with
  | true => rw [encodeOn_rejects c hv]; simp [State.issueOn, hv]
  | false =>
    have ha : s.accelEn = false := by simpa [State.Passes, hv] using hp
    rw [encodeOn_disabled c hv ha]
    simp [State.issueOn, hv, ha]

/-- An issued command waits for the builder, or has ended as if taken whole. -/
theorem State.Inv.issueOn {s : State} (h : s.Inv) {c : Nat} {k : Context} (hk : Context.Ok s.accelEn s.lutValid k)
    (hb : k.busy = false) (i : Instr) : (s.issueOn c k i).Inv := by
  by_cases hp : s.Passes k i
  · obtain ⟨ha, hv⟩ := hp
    rw [issueOn_waits c k ha hv]
    rw [ha] at hk
    exact h.putCtx c (ha ▸ hk.waiting hb hv)
  · cases i with
    | lutbuild => rw [issueOn_lutbuild_of_not_passes c hp]; exact h.lutbuildOn hk hb
    | encode => rw [issueOn_encode_of_not_passes c hp]; exact h.encodeOn hk hb

theorem Move.keeps_inv {s t : State} (hm : Move s t) (h : s.Inv) : t.Inv := by
  have selects : ∀ {c : Nat} {k : Context}, s.ctxs[c]? = some k → State.Inv { s with cur := c } := fun hk =>
    h.select _ (List.getElem?_eq_some_iff.mp hk).1
  cases hm with
  | stay => exact h
  | hold c k e hk hb => exact h.putCtx c ((h.ok_of_ctx hk).hold hb e)
  | answer c k r hk hb => exact h.putCtx c ((h.ok_of_ctx hk).respond r)
  | write c k k' v r hk hb hw => exact h.putCtx c (((h.ok_of_ctx hk).writeReg hb hw).respond .ok)
  | illegal c k hk hb => exact (selects hk).endCommand c _ ((h.ok_of_ctx hk).illegal hb)
  | lutbuild c k hk hb => exact (selects hk).lutbuildOn (h.ok_of_ctx hk) hb
  | encode c k hk hb => exact (selects hk).encodeOn (h.ok_of_ctx hk) hb
  | issue c k i hk hb => exact (selects hk).issueOn (h.ok_of_ctx hk) hb i
  | buildEnd c k hk hp =>
    have ha : s.accelEn = true := ((h.ok_of_ctx hk).pending_idle (by simp [hp])).1
    have hk' := (h.ok_of_ctx hk).served hp
    rw [ha] at hk'
    exact h.build_endCommand ha c hk'
  | buildRun c k hk hp =>
    have ha : s.accelEn = true := ((h.ok_of_ctx hk).pending_idle (by simp [hp])).1
    have hk' := (h.ok_of_ctx hk).served hp
    refine (h.build ha).putCtx c ?_
    rw [State.buildStep_accelEn, State.buildStep_lutValid]
    exact hk'
  | group c k hk hr hlast => exact h.putCtx c ((h.ok_of_ctx hk).groupStep hr s.lut hlast)
  | complete c k hk hr hlast => exact h.endCommand c _ ((h.ok_of_ctx hk).completeRun hr s.lut)

/-- Reset keeps the invariant: NCTX and BASE stay legal (R4, R250). -/
theorem State.Inv.applyReset {s : State} (h : s.Inv) (accelEn : Bool) : (s.applyReset accelEn).Inv := by
  have hn : 1 ≤ s.ctxs.length := Nat.one_le_of_lt h.cur_lt
  exact State.resetWith_inv _ _ _ hn h.base_page

/-- Settles O30: a step is a reset or a move, and both keep the invariant. -/
theorem everyStepKeepsInvariant : Obligations.EveryStepKeepsInvariant := by
  intro s t h hst
  rcases step_move s with ⟨accelEn, rest, -, hr⟩ | ⟨-, u, hu, hm⟩
  · cases hr.symm.trans hst
    exact h.dropEvent.applyReset accelEn
  · cases hu.symm.trans hst
    exact hm.keeps_inv h.dropEvent

/-! ### Every reachable state (R47) -/

/-- What every step keeps, every run keeps. -/
theorem run_keeps {P : State → Prop} (hstep : ∀ s t, P s → step s = .next t → P t) (n : Nat) {s t : State}
    (h : P s) (hrun : core.run n s = .next t) : P t := by
  induction n generalizing s with
  | zero => cases hrun; exact h
  | succ n ih =>
    obtain ⟨u, hu⟩ : ∃ u, step s = .next u := by
      rcases step_move s with ⟨_, _, -, hu⟩ | ⟨-, u, hu, -⟩
      · exact ⟨_, hu⟩
      · exact ⟨u, hu⟩
    rw [run_succ n hu] at hrun
    exact ih (hstep s u h hu) hrun

/-- Settles O31: reset meets the invariant and every step keeps it; R47 is part of it. -/
theorem reachableStatesMeetR47 : Obligations.ReachableStatesMeetR47 := by
  intro p r inputs n s hp hrun
  obtain ⟨-, reset_inv⟩ := resetMeetsInvariant
  have h : s.Inv := run_keeps everyStepKeepsInvariant n (reset_inv p r inputs hp) hrun
  refine ⟨h.table, h.table_enabled, fun k hk => ?_⟩
  have hok := h.ctx_ok k hk
  exact ⟨hok.count_le, fun hr => ⟨(hok.run_bound hr).1, hok.grp_le⟩, hok.err_done, hok.accel_done, hok.pv_err,
    hok.run_table⟩

/-! ### One access of a register (R118, R119) -/

/-- An access 4 bytes wide at a multiple of 4 (R63). -/
theorem Access.aligned_of_word {a : Access} (hw : a.width = 4) (ha : a.addr % 4 = 0) : a.aligned = true := by
  simp [Access.aligned, hw, ha]

/-- A read of a readable register of a context in no command answers its value (R119). -/
theorem State.Presents.step_read {s : State} {a : Access} {c off : Nat} {k : Context} {rest : List Event}
    (h : s.Presents a c off k rest) (ha : a.aligned = true) (hd : a.dir = .read) {r : Reg} (hr : regAt off = r)
    {v : Word} (hv : s.readReg k r = some v) :
    step s = .next { s with inputs := rest, ctxs := s.ctxs.set c { k with resp := .data v } } := by
  subst hr
  obtain ⟨whole, hstep⟩ := step_of_presents h
  have hv' : State.readReg { s with inputs := rest } k (regAt off) = some v := by
    rw [← hv]; cases regAt off <;> rfl
  rw [hstep]
  simp only [State.performAccess, ha, hd, hv']
  rfl

/-- A write to a register with storage, of a context in no command, stores and answers OK (R118). -/
theorem State.Presents.step_write {s : State} {a : Access} {c off : Nat} {k : Context} {rest : List Event} {v : Word}
    (h : s.Presents a c off k rest) (ha : a.aligned = true) (hd : a.dir = .write v) {r : Reg} (hr : regAt off = r)
    {k' : Context} (hk : k.writeReg v r = some k') :
    step s = .next { s with inputs := rest, ctxs := s.ctxs.set c { k' with resp := .ok } } := by
  subst hr
  obtain ⟨whole, hstep⟩ := step_of_presents h
  have hc : regAt off ≠ .cmd := fun hc => by rw [hc] at hk; cases hk
  rw [hstep]
  simp only [State.performAccess, ha, hd, hk, hc]
  rfl

/-- Settles O47: the offset's register has storage, and the write stores there. -/
theorem writesStoreTheNamedRegister : Obligations.WritesStoreTheNamedRegister := by
  intro s a c off k rest v h hw hal hd
  have ha := Access.aligned_of_word hw hal
  refine ⟨?_, ?_, ?_, ?_⟩
  · rintro rfl
    exact h.step_write ha hd (r := .srcLen) rfl rfl
  · rintro rfl
    exact h.step_write ha hd (r := .dstCap) rfl rfl
  · rintro rfl
    exact h.step_write ha hd (r := .lutIdx) rfl rfl
  · rintro i rfl
    exact h.step_write ha hd (regAt_scan i) rfl

/-- Settles O48: the offset's register is readable, and the read answers its value. -/
theorem readsReturnTheNamedRegister : Obligations.ReadsReturnTheNamedRegister := by
  intro s a c off k rest h hw hal hd
  have ha := Access.aligned_of_word hw hal
  refine ⟨?status, ?srcLen, ?dstCap, ?count, ?lutIdx, ?lutRow, ?rleLo, ?rleHi, ?scan, ?out⟩
  case status => rintro rfl; exact h.step_read ha hd (r := .status) rfl rfl
  case srcLen => rintro rfl; exact h.step_read ha hd (r := .srcLen) rfl rfl
  case dstCap => rintro rfl; exact h.step_read ha hd (r := .dstCap) rfl rfl
  case count => rintro rfl; exact h.step_read ha hd (r := .count) rfl rfl
  case lutIdx => rintro rfl; exact h.step_read ha hd (r := .lutIdx) rfl rfl
  case lutRow => rintro rfl; exact h.step_read ha hd (r := .lutRow) rfl rfl
  case rleLo => rintro n rfl; exact h.step_read ha hd (regAt_rleLo n) rfl
  case rleHi => rintro n rfl; exact h.step_read ha hd (regAt_rleHi n) rfl
  case scan => rintro i rfl; exact h.step_read ha hd (regAt_scan i) rfl
  case out => rintro i rfl; exact h.step_read ha hd (regAt_out i) rfl

/-! ### Reset (R46) -/

/-- The reset values that the spec states for one context. -/
theorem Context.reset_record (r c : Nat) : (Context.reset r c).Record false false 0#4 false false :=
  ⟨rfl, rfl, rfl, rfl, rfl⟩

/-- STATUS right after reset: only ACCEL_EN can be set (R46). -/
theorem statusWord_reset (accelEn : Bool) (r c : Nat) :
    statusWord accelEn false (Context.reset r c) = if accelEn then 0x00000008#32 else 0x00000000#32 := by
  cases accelEn <;> simp only [statusWord, Context.reset] <;> decide

/-- Settles O54: every context of the state after a reset is `Context.reset` of its number. -/
theorem resetRestoresEveryContext : Obligations.ResetRestoresEveryContext := by
  intro s rest accelEn hin
  refine ⟨State.applyReset { s with inputs := rest } accelEn, step_of_inputs hin, rfl, rfl, rfl, rfl,
    applyReset_nctx { s with inputs := rest } accelEn, fun k hk => ?_⟩
  obtain ⟨c, -, rfl⟩ := List.mem_map.mp hk
  exact ⟨rfl, rfl, rfl, rfl, Context.reset_record _ c, rfl, rfl, rfl, rfl, statusWord_reset accelEn _ c⟩

/-! ### STATUS and LUT_ROW bit by bit (R31, R137) -/

/-- A bit appended below a word is its bit 0. -/
theorem append_ofBool_getLsbD {w : Nat} (x : BitVec w) (b : Bool) (i : Nat) :
    (x ++ BitVec.ofBool b).getLsbD i = if i = 0 then b else x.getLsbD (i - 1) :=
  BitVec.getLsbD_concat x b i

/-- Settles O55: bits 3:0 are single fields, the next 4 bits are ERR, and above them are two single fields and zeros. -/
theorem statusBits : Obligations.StatusBits := by
  intro accelEn lutValid k i
  have layout : ∀ j, (0#22 ++ BitVec.ofBool k.capBad ++ BitVec.ofBool k.lenBad).getLsbD j =
      if j = 0 then k.lenBad else if j = 1 then k.capBad else false := by
    intro j
    rw [append_ofBool_getLsbD, append_ofBool_getLsbD, BitVec.getLsbD_zero]
    rcases j with _ | _ | j <;> simp
  rw [statusWord, append_ofBool_getLsbD, append_ofBool_getLsbD, append_ofBool_getLsbD, append_ofBool_getLsbD,
    BitVec.getLsbD_append, layout]
  rcases i with _ | _ | _ | _ | i
  · rfl
  · rfl
  · rfl
  · rfl
  · by_cases hi : i < 4
    · simp [hi]
    · obtain ⟨j, rfl⟩ := Nat.exists_eq_add_of_le' (not_lt.mp hi)
      rcases j with _ | _ | j <;> simp

/-- Bit i of the OR of the lanes' words onto v. -/
theorem foldl_or_getLsbD {w : Nat} (f : Fin 8 → BitVec w) (l : List (Fin 8)) (v : BitVec w) (i : Nat) :
    (l.foldl (fun v k => v ||| f k) v).getLsbD i = (v.getLsbD i || l.any fun k => (f k).getLsbD i) := by
  induction l generalizing v with
  | nil => simp
  | cons k l ih => rw [List.foldl_cons, ih, BitVec.getLsbD_or, List.any_cons, Bool.or_assoc]

/-- Entry k shifted to its place has its own bits in the 4 bits of place k, and none in those of another place. -/
theorem lane_shiftLeft_getLsbD (x : Lane) (k j : Fin 8) (b : Nat) (hb : b < 4) :
    ((x.setWidth 32).shiftLeft (4 * k.val)).getLsbD (4 * j.val + b) = (decide (k = j) && x.getLsbD b) := by
  have h32 : 4 * j.val + b < 32 := by omega
  rw [BitVec.shiftLeft_eq, BitVec.getLsbD_shiftLeft, BitVec.getLsbD_setWidth]
  rcases lt_trichotomy k.val j.val with hlt | heq | hgt
  · have hne : k ≠ j := Fin.ne_of_lt hlt
    rw [x.getLsbD_of_ge _ (by omega)]
    simp [hne]
  · obtain rfl : k = j := Fin.ext heq
    have hb32 : b < 32 := by omega
    simp [h32, hb32]
  · have hne : k ≠ j := Fin.ne_of_gt hgt
    have hlow : 4 * j.val + b < 4 * k.val := by omega
    simp [hne, hlow]

/-- R137: the 4 bits of place j in a packed row are entry j, zero-extended. -/
theorem packRow_getLsbD (r : Row) (j : Fin 8) (b : Nat) (hb : b < 4) :
    (packRow r).getLsbD (4 * j.val + b) = (r[j.val]).getLsbD b := by
  rw [packRow, foldl_or_getLsbD fun k => (BitVec.setWidth 32 r[k.val]).shiftLeft (4 * k.val)]
  simp only [lane_shiftLeft_getLsbD _ _ j b hb, lanes_eq_finRange, BitVec.getLsbD_zero, Bool.false_or]
  rw [Bool.eq_iff_iff, List.any_eq_true]
  simp

/-- Settles O56: each entry of the row stands in its own 4 bits of the window. -/
theorem lutWindowShowsSelectedRow : Obligations.LutWindowShowsSelectedRow := by
  intro lutValid lut idx
  refine ⟨?built, ?absent⟩
  case built =>
    rintro rfl j
    refine BitVec.eq_of_getLsbD_eq fun b hb => ?_
    rw [BitVec.getLsbD_extractLsb', BitVec.getLsbD_setWidth, lutWindow, if_pos rfl, packRow_getLsbD _ j b hb]
  case absent =>
    rintro rfl
    rfl

/-! ### The contexts do not interact (R70) -/

theorem SameShared.withInputs {s t : State} (h : SameShared s t) (i j : List Event) :
    SameShared { s with inputs := i } { t with inputs := j } :=
  ⟨h.accelEn, h.base, h.lutValid, h.lut, h.resets, h.nctx⟩

theorem SameShared.target {s t : State} (h : SameShared s t) (e : Event) : t.target e = s.target e := by
  cases e <;> simp only [State.target, h.locate]

/-- An event that is no reset leaves every context that it is not addressed to. -/
theorem takeEvent_other {s t : State} {e : Event} (he : ∀ b, e ≠ .reset b) (h : s.takeEvent e = .next t) {d : Nat}
    (hd : s.target e ≠ some d) : t.ctxs[d]? = s.ctxs[d]? := by
  cases e with
  | access a => exact hostAccess_other true a h hd
  | issue a => exact hostAccess_other false a h hd
  | builder c => cases h; exact builderStep_other s fun hc => hd (congrArg some hc.symm)
  | sequencer c => cases h; exact sequencerStep_other s fun hc => hd (congrArg some hc.symm)
  | reset b => exact absurd rfl (he b)

/-- An event addressed to context c reads nothing of another context. -/
theorem SameView.takeEvent {s t s' t' : State} {c : Nat} (h : SameView c s t) {e : Event} (hc : s.target e = some c)
    (h₁ : s.takeEvent e = .next s') (h₂ : t.takeEvent e = .next t') : SameView c s' t' := by
  cases e with
  | access a => exact h.hostAccess true a hc h₁ h₂
  | issue a => exact h.hostAccess false a hc h₁ h₂
  | builder d => cases hc; cases h₁; cases h₂; exact h.builderStep
  | sequencer d => cases hc; cases h₁; cases h₂; exact h.sequencerStep
  | reset b => cases hc

/-- Every context after a reset depends on the number of contexts and of resets alone (R250). -/
theorem SameShared.applyReset_ctxs {s t : State} (h : SameShared s t) (accelEn : Bool) :
    (t.applyReset accelEn).ctxs = (s.applyReset accelEn).ctxs := by
  simp only [State.applyReset, State.resetWith, h.nctx, h.resets]

/-- Whatever the event, context c afterwards depends on context c and the shared part alone. -/
theorem SameView.takeEvent_ctx {s t s' t' : State} {c : Nat} (h : SameView c s t) {e : Event}
    (h₁ : s.takeEvent e = .next s') (h₂ : t.takeEvent e = .next t') : t'.ctxs[c]? = s'.ctxs[c]? := by
  by_cases hr : ∃ b, e = .reset b
  · obtain ⟨b, rfl⟩ := hr
    cases h₁; cases h₂
    rw [h.applyReset_ctxs b]
  · have hn : ∀ b, e ≠ .reset b := fun b hb => hr ⟨b, hb⟩
    by_cases hc : s.target e = some c
    · exact (h.takeEvent hc h₁ h₂).ctx
    · rw [takeEvent_other hn h₁ hc, takeEvent_other hn h₂ (by rwa [h.target]), h.ctx]

/-- With nothing scheduled, the step is a builder or sequencer event of one context, or nothing. -/
theorem step_of_no_inputs {s : State} (hin : s.inputs = []) :
    step s = .next s ∨
      ∃ c, step s = step { s with inputs := [.builder c] } ∨ step s = step { s with inputs := [.sequencer c] } := by
  have hs : { s with inputs := [] } = s := by cases s; cases hin; rfl
  have hstep : step s = .next s.idleStep := by simp only [step, State.stepOnce, hin]
  have builds : ∀ c, step { s with inputs := [.builder c] } = .next (s.builderStep c) := fun c => by
    rw [step_of_inputs rfl]; simp only [hs, State.takeEvent]
  have sequences : ∀ c, step { s with inputs := [.sequencer c] } = .next (s.sequencerStep c) := fun c => by
    rw [step_of_inputs rfl]; simp only [hs, State.takeEvent]
  rw [hstep]
  cases hk : s.ctxs[s.ctxs.findIdx Context.busy]? with
  | none => exact .inl (by simp only [State.idleStep, hk])
  | some k =>
    refine .inr ⟨s.ctxs.findIdx Context.busy, ?_⟩
    rw [idleStep_of_busy hk, builds, sequences]
    by_cases hp : k.pending.isSome
    · exact .inl (by rw [if_pos hp])
    · exact .inr (by rw [if_neg hp])

/-- Settles O35: an event leaves the contexts it is not addressed to and reads only the one it is addressed to and the
shared part; with nothing scheduled the step is such an event's. -/
theorem contextsDoNotInteract : Obligations.ContextsDoNotInteract := by
  refine ⟨?writes, ?reads, fun s hin => step_of_no_inputs hin⟩
  case writes =>
    intro s t e rest hin hreset hst d hd
    rw [step_of_inputs hin] at hst
    have he : ∀ b, e ≠ .reset b := by
      rintro b rfl
      simp [State.resetNext, hin] at hreset
    exact takeEvent_other he hst hd
  case reads =>
    intro s₁ s₂ t₁ t₂ e rest₁ rest₂ c hin₁ hin₂ hsh hctx hst₁ hst₂
    rw [step_of_inputs hin₁] at hst₁
    rw [step_of_inputs hin₂] at hst₂
    have hview : SameView c { s₁ with inputs := rest₁ } { s₂ with inputs := rest₂ } :=
      ⟨hsh.withInputs rest₁ rest₂, hctx.symm⟩
    exact ⟨(hview.takeEvent_ctx hst₁ hst₂).symm, fun hc => (hview.takeEvent hc hst₁ hst₂).toSameShared⟩

end Sys2Proof.Machine

/-! The register pages and the port (spec/20_memory.md): where the registers and the pages stand (R61, R62), what the
port does with an access outside the pages, to a busy context's page, and against the register map (R62, R69, R223), how
a command word comes to run (R97, R110), and what the sequencers leave in the contexts and in RLE (R64, R169, R170). -/

namespace Sys2Proof.Machine

open Sys2Proof

/-! ### Where the registers stand (R61) -/

/-- Every register stands at its offset, which is aligned and inside the page. -/
theorem regAt_offset {r : Reg} {off : Nat} (h : r.offset = some off) :
    regAt off = r ∧ off < pageBytes ∧ off % 4 = 0 := by
  cases r with
  | cmd | status | srcLen | dstCap | count | lutIdx | lutRow =>
    cases h
    exact ⟨rfl, by decide, rfl⟩
  | rleLo n => cases h; exact ⟨regAt_rleLo n, by unfold pageBytes; omega, by omega⟩
  | rleHi n => cases h; exact ⟨regAt_rleHi n, by unfold pageBytes; omega, by omega⟩
  | scan i => cases h; exact ⟨regAt_scan i, by unfold pageBytes; omega, by omega⟩
  | out i => cases h; exact ⟨regAt_out i, by unfold pageBytes; omega, by omega⟩
  | reserved => cases h

/-- The three gaps of the page hold no register. -/
theorem regAt_gap {off : Nat} (h : off = 0x01C ∨ (0x040 ≤ off ∧ off < 0x400) ∨ 0xC00 ≤ off) :
    regAt off = .reserved := by
  rcases h with rfl | h | h
  · rfl
  · unfold regAt
    repeat rw [if_neg (by omega)]
    rw [if_pos (by omega)]
  · unfold regAt
    repeat rw [if_neg (by omega)]

/-- In the RLE window stands a half of an RLE word. -/
theorem regAt_rleWindow {off : Nat} (h : 0x020 ≤ off ∧ off < 0x040) :
    (∃ n, regAt off = .rleLo n) ∨ ∃ n, regAt off = .rleHi n := by
  unfold regAt
  repeat rw [if_neg (by omega)]
  rw [if_pos (by omega)]
  by_cases h8 : off % 8 = 0
  · exact .inl ⟨_, if_pos h8⟩
  · exact .inr ⟨_, if_neg h8⟩

/-- In the OUT window stands an element of OUT. -/
theorem regAt_outWindow {off : Nat} (h : 0x800 ≤ off ∧ off < 0xC00) : ∃ i, regAt off = .out i := by
  unfold regAt
  repeat rw [if_neg (by omega)]
  exact ⟨_, if_pos (by omega)⟩

/-- The registers below the first large gap, checked one by one. -/
theorem regAt_low : ∀ off, off < 0x040 → off % 4 = 0 → regAt off ≠ .reserved → (regAt off).offset = some off := by
  decide

/-- An aligned offset at which a register stands is that register's. -/
theorem offset_regAt {off : Nat} (ha : off % 4 = 0) (hr : regAt off ≠ .reserved) :
    (regAt off).offset = some off := by
  by_cases hlow : off < 0x040
  · exact regAt_low off hlow ha hr
  by_cases hscan : 0x400 ≤ off ∧ off < 0x800
  · obtain ⟨i, rfl⟩ : ∃ i : Fin 256, off = 0x400 + 4 * i.val := ⟨⟨(off - 0x400) / 4, by omega⟩, by dsimp only; omega⟩
    rw [regAt_scan]; rfl
  by_cases hout : 0x800 ≤ off ∧ off < 0xC00
  · obtain ⟨i, rfl⟩ : ∃ i : Fin 256, off = 0x800 + 4 * i.val := ⟨⟨(off - 0x800) / 4, by omega⟩, by dsimp only; omega⟩
    rw [regAt_out]; rfl
  exact absurd (regAt_gap (by omega)) hr

/-- Settles O45: the registers are found at their offsets, and the offsets between them are reserved. -/
theorem registerMapAsTabled : Obligations.RegisterMapAsTabled :=
  ⟨fun _ _ h => regAt_offset h, fun _ ha hr => offset_regAt ha hr⟩

/-! ### Where the pages are (R62) -/

theorem locate_pageAddr {s : State} {c off : Nat} (hc : c < s.ctxs.length) (ho : off < pageBytes) :
    s.locate (s.pageAddr c off) = some (c, off) := by
  have hend : pageBytes * c + pageBytes ≤ pageBytes * s.ctxs.length := Nat.mul_le_mul_left pageBytes hc
  have hrel : s.pageAddr c off - s.base = pageBytes * c + off := by unfold State.pageAddr; omega
  rw [State.locate, if_pos (by unfold State.pageAddr; omega), hrel, Nat.mul_add_div (by decide), Nat.mul_add_mod,
    Nat.div_eq_of_lt ho, Nat.mod_eq_of_lt ho, Nat.add_zero]

theorem locate_outside {s : State} {a : Nat} (h : a < s.base ∨ s.base + pageBytes * s.ctxs.length ≤ a) :
    s.locate a = none :=
  if_neg (by omega)

/-- Settles O46: an address of a page is split by the page size, and every other address is in no page. -/
theorem pagesAsPlaced : Obligations.PagesAsPlaced :=
  fun _ => ⟨fun _ _ hc ho => locate_pageAddr hc ho, fun _ h => locate_outside h⟩

/-! ### Accesses that the port does not perform (R62, R69) -/

theorem takeEvent_outside {s : State} {e : Event} {a : Access} (he : e = .access a ∨ e = .issue a)
    (hl : s.locate a.addr = none) : s.takeEvent e = .next s := by
  rcases he with rfl | rfl <;> simp only [State.takeEvent, State.hostAccess, hl]

theorem takeEvent_held {s : State} {e : Event} {a : Access} {c off : Nat} {k : Context}
    (he : e = .access a ∨ e = .issue a) (hl : s.locate a.addr = some (c, off)) (hk : s.ctxs[c]? = some k)
    (hb : k.busy = true) : s.takeEvent e = .next (s.hold c k e) := by
  rcases he with rfl | rfl <;> simp only [State.takeEvent, State.hostAccess, hl, hk, hb] <;> rfl

/-- Settles O53: the address is found in no page. -/
theorem accessOutsidePagesChangesNothing : Obligations.AccessOutsidePagesChangesNothing := by
  intro s a rest hin hout
  have hl : State.locate { s with inputs := rest } a.addr = none := locate_outside hout
  rcases hin with hin | hin
  · rw [step_of_inputs hin, takeEvent_outside (.inl rfl) hl]
  · rw [step_of_inputs hin, takeEvent_outside (.inr rfl) hl]

/-- Settles O51: the port holds the access before it looks at anything else of it. -/
theorem busyContextHoldsAccesses : Obligations.BusyContextHoldsAccesses := by
  intro s e a c off k rest he hin hl hk hb
  rw [step_of_inputs hin]
  exact takeEvent_held (s := { s with inputs := rest }) he hl hk hb

/-! ### Accesses that get ERROR (R223) -/

/-- The register r does not take an access of this direction: it cannot be read (R119), or it is neither CMD nor a
register with storage (R118). -/
def State.Refuses (s : State) (k : Context) (r : Reg) : Direction → Prop
  | .read => s.readReg k r = none
  | .write v => r ≠ .cmd ∧ k.writeReg v r = none

/-- An access that is not aligned, or that its register refuses, gets ERROR and changes nothing else (R63, R65). -/
theorem State.Presents.step_error {s : State} {a : Access} {c off : Nat} {k : Context} {rest : List Event}
    (h : s.Presents a c off k rest) (hbad : a.aligned = true → s.Refuses k (regAt off) a.dir) :
    step s = .next { s with inputs := rest, ctxs := s.ctxs.set c { k with resp := .error } } := by
  obtain ⟨whole, hstep⟩ := step_of_presents h
  rw [hstep]
  cases ha : a.aligned with
  | false => simp only [State.performAccess, ha]; rfl
  | true =>
    replace hbad := hbad ha
    cases hd : a.dir with
    | read =>
      rw [hd] at hbad
      have hr : State.readReg { s with inputs := rest } k (regAt off) = none := hbad
      simp only [State.performAccess, ha, hd, hr]
      rfl
    | write v =>
      rw [hd] at hbad
      obtain ⟨hc, hw⟩ := hbad
      simp only [State.performAccess, ha, hd, hc, hw]
      rfl

/-- A reserved offset refuses every access (R65). -/
theorem refuses_gap (s : State) (k : Context) (d : Direction) {off : Nat}
    (h : off = 0x01C ∨ (0x040 ≤ off ∧ off < 0x400) ∨ 0xC00 ≤ off) : s.Refuses k (regAt off) d := by
  rw [regAt_gap h]
  cases d with
  | read => rfl
  | write v => exact ⟨nofun, rfl⟩

/-- STATUS, COUNT, LUT_ROW, the halves of RLE and OUT are read-only (R118). -/
theorem refuses_write_readOnly (s : State) (k : Context) (v : Word) {off : Nat}
    (h : off = 0x004 ∨ off = 0x010 ∨ off = 0x018 ∨ (0x020 ≤ off ∧ off < 0x040) ∨ (0x800 ≤ off ∧ off < 0xC00)) :
    s.Refuses k (regAt off) (.write v) := by
  rcases h with rfl | rfl | rfl | hrle | hout
  · exact ⟨nofun, rfl⟩
  · exact ⟨nofun, rfl⟩
  · exact ⟨nofun, rfl⟩
  · rcases regAt_rleWindow hrle with ⟨n, hr⟩ | ⟨n, hr⟩ <;> rw [hr] <;> exact ⟨nofun, rfl⟩
  · obtain ⟨i, hr⟩ := regAt_outWindow hout
    rw [hr]
    exact ⟨nofun, rfl⟩

/-- Settles O49: each cause is a bad alignment or an access that its register refuses. -/
theorem illegalAccessesGetErrorOnly : Obligations.IllegalAccessesGetErrorOnly := by
  intro s a c off k rest h hcause
  refine h.step_error fun ha => ?_
  obtain ⟨hw4, ha4⟩ : a.width = 4 ∧ a.addr % 4 = 0 := by simpa [Access.aligned] using ha
  rcases hcause with hw | hal | hgap | hgap | hgap | ⟨hd, rfl⟩ | ⟨⟨v, hd⟩, hro⟩
  · exact absurd hw4 hw
  · exact absurd ha4 hal
  · exact refuses_gap s k a.dir (.inl hgap)
  · exact refuses_gap s k a.dir (.inr (.inl hgap))
  · exact refuses_gap s k a.dir (.inr (.inr hgap))
  · rw [hd]; rfl
  · rw [hd]; exact refuses_write_readOnly s k v hro

/-! ### A command word at CMD (R97, R110) -/

/-- R91, R97: the only words that decode are the two command words. -/
theorem eq_encode_of_decode {w : Word} {i : Instr} (h : decode w = .ok i) : w = encode i := by
  have hfields : w = zeroField w ++ opcField w := by
    unfold zeroField opcField
    exact (BitVec.extractLsb'_append_extractLsb' (w := 24) (len := 8)).symm
  unfold decode at h
  split_ifs at h with hz hl he
  · cases h; rw [hfields, hl, not_not.mp hz]; rfl
  · cases h; rw [hfields, he, not_not.mp hz]; rfl

/-- Settles O4: a word that decodes is the command's word, whose CMD write taken whole is the command. -/
theorem stepRunsDecodedCommand : Obligations.StepRunsDecodedCommand := by
  intro s rest a c k w i hin hw ha hd hl hk hb hdec
  have hs : { s with inputs := .access a :: rest } = s := by rw [← hin]
  rw [eq_encode_of_decode hdec] at hd
  have hstep := (step_of_command rest hl hw ha hd hk hb).1
  rwa [hs] at hstep

/-- The write of a command's word to CMD of the selected context, in no command, runs that command. -/
theorem step_cmdWrite {s : State} {k : Context} (i : Instr) (h : s.Selected k) (hbase : s.base % 4 = 0) :
    step { s with inputs := .access (s.cmdWrite s.cur (encode i)) :: s.inputs } = exec i s := by
  have hc : s.cur < s.ctxs.length := (List.getElem?_eq_some_iff.mp h.ctx).1
  have halign : s.pageAddr s.cur 0x000 % 4 = 0 := by unfold State.pageAddr pageBytes; omega
  exact (step_of_command s.inputs (locate_pageAddr hc (by decide)) rfl halign rfl h.ctx h.idle).1

/-- Settles O5: the placed event is the write of the command's word to CMD of the context made ready. -/
theorem placedCommandRunsNext : Obligations.PlacedCommandRunsNext := by
  intro s k i hk hbase
  have hready : s.ready s.cur = s.putCtx s.cur { k with phase := .idle, pending := none } := by
    simp only [State.ready, hk]
  have hword : BitVec.ofNat 32 ((encode i).toNat % 2 ^ 32) = encode i := by cases i <;> rfl
  simp only [State.withFetchWord, State.placeCommand, hword, hready]
  exact step_cmdWrite i ⟨set_getElem?_self hk _, rfl⟩ hbase

/-! ### Where a command goes (R62, R110) -/

/-- Both commands go through `State.onIdle`. -/
theorem exec_onIdle (i : Instr) (s : State) : ∃ f, exec i s = s.onIdle i f := by
  cases i with
  | lutbuild => exact ⟨_, rfl⟩
  | encode => exact ⟨_, rfl⟩

theorem exec_of_no_context {s : State} (i : Instr) (h : s.ctxs[s.cur]? = none) : exec i s = .fault .noSuchContext := by
  obtain ⟨f, hf⟩ := exec_onIdle i s
  rw [hf, State.onIdle, h]

theorem exec_of_busy {s : State} {k : Context} (i : Instr) (hk : s.ctxs[s.cur]? = some k) (hb : k.busy = true) :
    exec i s = .next (s.hold s.cur k (.access (s.cmdWrite s.cur (encode i)))) := by
  obtain ⟨f, hf⟩ := exec_onIdle i s
  simp only [hf, State.onIdle, hk, hb, if_true]

theorem exec_goes_on {s : State} (i : Instr) (h : s.cur < s.ctxs.length) : ∃ t, exec i s = .next t := by
  have hk := List.getElem?_eq_getElem h
  cases hb : s.ctxs[s.cur].busy with
  | true => exact ⟨_, exec_of_busy i hk hb⟩
  | false =>
    obtain ⟨f, hf⟩ := exec_onIdle i s
    exact ⟨f s.ctxs[s.cur], by simp [hf, State.onIdle, hk, hb]⟩

/-- Settles O7: both commands ask first for the selected context and then whether it is busy. -/
theorem commandNeedsAContext : Obligations.CommandNeedsAContext := by
  intro i s
  refine ⟨⟨fun hf => ?_, fun hc => exec_of_no_context i (List.getElem?_eq_none hc)⟩, exec_goes_on i, fun k hk hb =>
    exec_of_busy i hk hb⟩
  by_contra hc
  obtain ⟨t, ht⟩ := exec_goes_on i (not_le.mp hc)
  cases hf.symm.trans ht

/-! ### The sequencer's steps (R161, R169, R170) -/

/-- The step of context c's sequencer as an update of the list of contexts. -/
theorem sequencerStep_ctxs (s : State) (c : Nat) :
    (s.sequencerStep c).ctxs = s.ctxs.modify c (Context.sequenced s.lut) := by
  refine List.ext_getElem? fun d => ?_
  rw [List.getElem?_modify]
  by_cases hd : d = c
  · subst hd
    cases hk : s.ctxs[d]? with
    | none => simp [State.sequencerStep, hk]
    | some k => simp [sequencerStep_self hk]
  · simp [sequencerStep_other s hd, Ne.symm hd]

/-- Settles O36: each step updates its own context and writes nothing shared, and updates of two contexts commute. -/
theorem sequencerStepsCommute : Obligations.SequencerStepsCommute := by
  intro s a b hab
  have hlut : ∀ t : State, ∀ c, (t.sequencerStep c).lut = t.lut := fun t c => (sequencerStep_shared t c).lut
  have hvalid : ∀ t : State, ∀ c, (t.sequencerStep c).lutValid = t.lutValid := fun t c =>
    (sequencerStep_shared t c).lutValid
  refine ⟨?_, ?_, ?_⟩
  · simp only [sequencerStep_ctxs, hlut]
    exact List.modify_modify_ne _ _ s.ctxs hab
  · simp only [hlut]
  · simp only [hvalid]

/-- The last group step of a run ends the command (R169). -/
theorem sequencerStep_last {s : State} {c : Nat} {k : Context} (hk : s.ctxs[c]? = some k) (hr : k.phase = .run)
    (hg : k.grp = 31#6) : s.sequencerStep c = s.endCommand c (k.groupStep s.lut).completeRun := by
  have hg1 := Context.groupStep_grp s.lut k (by simp [hg])
  have h32 : ¬ (k.groupStep s.lut).grp.toNat < 32 := by simp [hg1, hg]
  simp only [State.sequencerStep, hk, hr, h32, if_false]

/-- Settles O52: the 32nd group step ends the command, which releases what is held. -/
theorem completionReleasesHeldAccesses : Obligations.CompletionReleasesHeldAccesses := by
  intro s c k hk hr hg
  rw [sequencerStep_last hk hr hg]
  exact ⟨_, endCommand_ctx hk _, by simp, by simp, by simp⟩

/-! ### The bytes of RLE (R64, R147) -/

/-- Byte j of an RLE word (R26). -/
theorem blockWord_byte (b : BlockBytes) {j : Nat} (hj : j < 8) : (blockWord b).extractLsb' (8 * j) 8 = b[j] := by
  refine BitVec.eq_of_getLsbD_eq fun i hi => ?_
  rw [BitVec.getLsbD_extractLsb', blockWord_getLsbD b j i hj hi]
  simp [hi]

theorem byteOfWord_extractLsb' (w : Block) (start : Nat) {j : Nat} (hj : j < 4) :
    byteOfWord (w.extractLsb' start 32) j = w.extractLsb' (start + 8 * j) 8 := by
  refine BitVec.eq_of_getLsbD_eq fun i hi => ?_
  have h32 : 8 * j + i < 32 := by omega
  simp [byteOfWord, hi, h32, Nat.add_assoc]

/-- A byte of a register that is half of a 64-bit word is a byte of that word (R64). -/
theorem pageByte_half {s : State} {k : Context} {off start : Nat} {r : Reg} {w : Block}
    (hr : regAt (off - off % 4) = r) (hv : s.readReg k r = some (w.extractLsb' start 32)) :
    s.pageByte k off = some (w.extractLsb' (start + 8 * (off % 4)) 8) := by
  rw [State.pageByte, hr, hv, Option.map_some, byteOfWord_extractLsb' w start (Nat.mod_lt _ (by decide))]

/-- Byte g of the RLE window is byte g mod 8 of RLE[g / 8] (R64). -/
theorem pageByte_rle (s : State) (k : Context) (g : Fin 32) :
    s.pageByte k (0x020 + g.val) = some ((blockWord k.rle[g.val / 8]).extractLsb' (8 * (g.val % 8)) 8) := by
  by_cases hlo : g.val % 8 < 4
  · have hoff : 0x020 + g.val - (0x020 + g.val) % 4 = 0x020 + 8 * (g.val / 8) := by omega
    have hbit : 0 + 8 * ((0x020 + g.val) % 4) = 8 * (g.val % 8) := by omega
    have hreg := regAt_rleLo ⟨g.val / 8, by omega⟩
    rw [pageByte_half (hoff ▸ hreg) rfl, hbit]
  · have hoff : 0x020 + g.val - (0x020 + g.val) % 4 = 0x024 + 8 * (g.val / 8) := by omega
    have hbit : 32 + 8 * ((0x020 + g.val) % 4) = 8 * (g.val % 8) := by omega
    have hreg := regAt_rleHi ⟨g.val / 8, by omega⟩
    rw [pageByte_half (hoff ▸ hreg) rfl, hbit]

/-- After all 32 groups, byte g mod 8 of RLE[g / 8] is the mask of group g (R147, R164). -/
theorem Context.DoneUpTo.rle_byte {k : Context} (h : k.DoneUpTo 32) (g : Fin 32) :
    (k.rle[g.val / 8])[g.val % 8] = dupMask k.scan g := by
  refine BitVec.eq_of_getLsbD_eq fun i hi => ?_
  have hg := g.isLt
  have hword : (8 * g.val + i) / 64 = g.val / 8 := by omega
  have hbyte : (8 * g.val + i) % 64 / 8 = g.val % 8 := by omega
  have hbit : (8 * g.val + i) % 8 = i := by omega
  have hflag := h.flags (8 * g.val + i) (by omega)
  rw [Context.maskBit_eq k _ (by omega)] at hflag
  simp only [hword, hbyte, hbit] at hflag
  rw [hflag, dupMask_getLsbD k.scan g ⟨i, hi⟩]

/-- The end of an ENCODE under the conditions of a full run (R116). -/
theorem State.Runs.exec_encode {s : State} {k : Context} (h : s.Runs k) :
    exec .encode s = .next (s.buildStep.endCommand s.cur (k.accept.runAll buildLut)) := by
  have hv : k.rejects = false := k.rejects_eq_false.mpr ⟨h.srcLen, h.dstCap⟩
  rw [Machine.exec_encode h.sel, encodeOn_runs s.cur hv h.enabled, s.buildStep_lut_eq h.table]

/-- Settles O57: a byte of the window is a byte of RLE, and after a run that byte is its group's mask. -/
theorem rleBytesAreGroupMasks : Obligations.RleBytesAreGroupMasks := by
  refine ⟨pageByte_rle, fun s k h => ?_⟩
  refine ⟨_, _, h.exec_encode, buildStep_endCommand_ctx h.sel.ctx _, fun g => ⟨?_, dupMask_getLsbD k.scan g⟩⟩
  have hmask := k.accept.runAll_doneUpTo.rle_byte g
  rw [Context.runAll_scan, Context.accept_scan] at hmask
  rw [pageByte_rle, blockWord_byte _ (by omega)]
  exact congrArg some hmask

end Sys2Proof.Machine

/-! The command words (spec/30_encoding.md): what the decoder answers for each of the 2^32 words (R92, R93, R97), and
that it reads back what the encoder writes, as a word, as 4 bytes in the order of R64 and as the opcode table numbers
it (R91, R95). -/

namespace Sys2Proof.Machine

open Sys2Proof

/-! ### What the decoder answers (R97) -/

/-- R92: the reserved bits are looked at before the operation code. -/
theorem decode_of_zeroField_ne {w : Word} (hz : zeroField w ≠ 0#24) : decode w = .error .reservedBits := if_pos hz

/-- R93: with the reserved bits 0, every operation code but the two of R91 is refused as one. -/
theorem decode_of_opcField_ne {w : Word} (hz : zeroField w = 0#24) (hl : opcField w ≠ 0x01#8)
    (he : opcField w ≠ 0x02#8) : decode w = .error .reservedOpcode := by
  rw [decode, if_neg (not_not.mpr hz), if_neg hl, if_neg he]

/-- R91: each command's word decodes to it. -/
@[simp] theorem decode_encode (i : Instr) : decode (encode i) = .ok i := by
  cases i with
  | lutbuild => exact Laws.DecodeEncode.lutbuild.1
  | encode => exact Laws.DecodeEncode.encode.1

/-- R91, R97: the decoder is the inverse of the encoder, and decodes nothing else. -/
theorem decode_eq_ok_iff {w : Word} {i : Instr} : decode w = .ok i ↔ w = encode i :=
  ⟨eq_encode_of_decode, fun h => h ▸ decode_encode i⟩

/-- Settles O2: the two refusals are the decoder's tests in their order, and the decoder inverts the encoder. -/
theorem exactlyTwoWordsAreCommands : Obligations.ExactlyTwoWordsAreCommands :=
  fun _ => ⟨decode_of_zeroField_ne, decode_of_opcField_ne, fun _ => decode_eq_ok_iff⟩

/-- Settles O1: two of the words are encodings, two have another operation code, two have a reserved bit set. -/
theorem commandWordsDecodeAsTabled : Obligations.CommandWordsDecodeAsTabled :=
  ⟨decode_encode .lutbuild, decode_encode .encode,
    decode_of_opcField_ne (by decide) (by decide) (by decide),
    decode_of_opcField_ne (by decide) (by decide) (by decide),
    decode_of_zeroField_ne (by decide), decode_of_zeroField_ne (by decide)⟩

/-! ### A command word as bytes and as the opcode table's number (R64, R95) -/

/-- R64: the 4 bytes of a word, put together again, are the word. -/
theorem wordOfBytes_byteOfWord (w : Word) :
    wordOfBytes (byteOfWord w 0) (byteOfWord w 1) (byteOfWord w 2) (byteOfWord w 3) = w := by
  have h16 : byteOfWord w 3 ++ byteOfWord w 2 = w.extractLsb' 16 16 :=
    BitVec.extractLsb'_append_extractLsb'_eq_extractLsb' rfl
  have h24 : w.extractLsb' 16 16 ++ byteOfWord w 1 = w.extractLsb' 8 24 :=
    BitVec.extractLsb'_append_extractLsb'_eq_extractLsb' rfl
  rw [wordOfBytes, h16, h24]
  exact BitVec.extractLsb'_append_extractLsb' (w := 24) (len := 8)

/-- Decoding a word's bytes is decoding the word. -/
theorem decodeBytes_byteOfWord (w : Word) :
    decodeBytes [byteOfWord w 0, byteOfWord w 1, byteOfWord w 2, byteOfWord w 3] = decode w :=
  congrArg decode (wordOfBytes_byteOfWord w)

/-- Decoding a word as the opcode table numbers it, with all its 32 bits, is decoding the word. -/
theorem decodeTableWord_toNat (w : Word) : decodeTableWord 32 w.toNat = (decode w).toOption := by
  have hv : w.toNat % 2 ^ 32 = w.toNat := Nat.mod_eq_of_lt w.isLt
  simp only [decodeTableWord, hv, if_neg (Nat.not_le.mpr w.isLt), BitVec.ofNat_toNat, BitVec.setWidth_eq,
    decodeBytes_byteOfWord]

/-- Settles O3: bytes and table number both decode as the word itself does, for every word. -/
theorem encodedCommandsDecodeToThemselves : Obligations.EncodedCommandsDecodeToThemselves := by
  intro i _
  refine ⟨(decodeBytes_byteOfWord (encode i)).trans (decode_encode i), ?_⟩
  rw [decodeTableWord_toNat, decode_encode]
  rfl

end Sys2Proof.Machine

/-! The two commands (spec/40_host_commands.md): what LUTBUILD and ENCODE leave on each of their paths (R111 to R116,
R120, R123), where requests for the table come from and what writes it (R131, R132), how long a run takes (R169, R170),
and the commands that need no table in their two forms (R9). -/

namespace Sys2Proof.Machine

open Sys2Proof

/-! ### The content a command ends with -/

/-- A command that runs nothing records DONE alone (R111, R114). -/
theorem accept_done_record (k : Context) :
    (Context.ended { k.accept with done := true }).Record true false 0#4 false false :=
  ⟨rfl, rfl, rfl, rfl, rfl⟩

theorem accept_done_stores (k : Context) : SameStores k { k.accept with done := true } :=
  ⟨rfl, rfl, rfl, rfl, rfl, rfl, rfl, rfl, rfl⟩

/-- A rejected ENCODE records ERR = 1 and which declarations fail (R113). -/
theorem rejected_record (k : Context) : k.rejected.ended.Record false false 1#4 k.lenFails k.capFails :=
  ⟨rfl, rfl, rfl, rfl, rfl⟩

theorem rejected_stores (k : Context) : SameStores k k.rejected :=
  ⟨rfl, rfl, rfl, rfl, rfl, rfl, rfl, rfl, rfl⟩

/-- A full run records DONE and ACCEL (R169). -/
theorem runAll_record (lut : Table) (k : Context) :
    (k.accept.runAll lut).ended.Record true true 0#4 false false := by
  constructor <;> simp

/-- The end of a command writes nothing but the port (R122). -/
theorem SameStores.ended {k k' : Context} (h : SameStores k k') : SameStores k k'.ended := { h with }

theorem Context.lenFails_eq (k : Context) : k.lenFails = decide (k.srcLen ≠ 256#32) := by
  simp [Context.lenFails, bne, beq_eq_decide]

theorem Context.capFails_eq (k : Context) : k.capFails = decide (k.dstCap.toNat < 256) := rfl

/-! ### What a command taken whole leaves outside its context -/

/-- From s to t a command of context c, whose content was k, has ended with the content k' (R122): what the context held
comes next (R69), and nothing outside the context and the table has changed. -/
structure State.EndsWith (s t : State) (c : Nat) (k k' : Context) : Prop where
  outside : SameOutside c s t
  cur : t.cur = s.cur
  inputs : t.inputs = k.held ++ s.inputs
  ctx : t.ctxs[c]? = some k'.ended

theorem endCommand_endsWith {s : State} {c : Nat} {k k' : Context} (hk : s.ctxs[c]? = some k)
    (hh : k'.held = k.held) : s.EndsWith (s.endCommand c k') c k k' :=
  ⟨(endCommand_same s c k').toSameOutside, rfl, by simp [hh], endCommand_ctx hk k'⟩

theorem buildStep_endCommand_endsWith {s : State} {c : Nat} {k k' : Context} (hk : s.ctxs[c]? = some k)
    (hh : k'.held = k.held) : s.EndsWith (s.buildStep.endCommand c k') c k k' :=
  ⟨buildStep_endCommand_same s c k', by simp, by simp [hh], buildStep_endCommand_ctx hk k'⟩

/-! ### LUTBUILD (R111) -/

theorem lutbuildOn_endsWith {s : State} {c : Nat} {k : Context} (hk : s.ctxs[c]? = some k) :
    s.EndsWith (s.lutbuildOn c k) c k { k.accept with done := true } := by
  cases ha : s.accelEn with
  | false => rw [lutbuildOn_disabled c k ha]; exact endCommand_endsWith hk rfl
  | true => rw [lutbuildOn_enabled c k ha]; exact buildStep_endCommand_endsWith hk rfl

theorem lutbuildOn_lutValid (s : State) (c : Nat) (k : Context) :
    (s.lutbuildOn c k).lutValid = (s.lutValid || s.accelEn) := by
  cases ha : s.accelEn with
  | false => simp [lutbuildOn_disabled c k ha]
  | true => simp [lutbuildOn_enabled c k ha]

theorem lutbuildOn_lut (s : State) (c : Nat) (k : Context) :
    (s.lutbuildOn c k).lut = if s.accelEn = true ∧ s.lutValid = false then buildLut else s.lut := by
  cases ha : s.accelEn with
  | false => simp [lutbuildOn_disabled c k ha]
  | true => cases hv : s.lutValid <;> simp [lutbuildOn_enabled c k ha, State.buildStep_lut, hv]

/-- Settles O8: the command ends with DONE alone, on the table that the build step leaves when it is taken. -/
theorem lutbuildCompletes : Obligations.LutbuildCompletes := fun s k hs =>
  ⟨_, _, exec_lutbuild hs, (lutbuildOn_endsWith hs.ctx).ctx, accept_done_record k, rfl, lutbuildOn_lutValid s s.cur k,
    lutbuildOn_lut s s.cur k⟩

/-- Settles O9: enabled or not, the command ends its own context with the stores it had. -/
theorem lutbuildFrame : Obligations.LutbuildFrame := by
  intro s t k hs ht
  cases (exec_lutbuild hs).symm.trans ht
  have h := lutbuildOn_endsWith hs.ctx
  exact ⟨h.outside, h.cur, h.inputs, _, h.ctx, (accept_done_stores k).ended, rfl, rfl⟩

/-! ### ENCODE (R112) -/

/-- Settles O10: validation fails, and its end writes the record and the port alone. -/
theorem encodeRejectsBadDeclarations : Obligations.EncodeRejectsBadDeclarations := by
  intro s k hs hbad
  have hv : k.rejects = true := by
    simpa [Context.rejects, Context.lenFails_eq, Context.capFails_eq] using hbad
  refine ⟨s.endCommand s.cur k.rejected, _, ?_, endCommand_ctx hs.ctx _, ?_, rfl, (rejected_stores k).ended,
    endCommand_same s s.cur _⟩
  · rw [exec_encode hs, encodeOn_rejects s.cur hv]
  · rw [← Context.lenFails_eq, ← Context.capFails_eq]
    exact rejected_record k

/-- Settles O11: validation passes, the capability test ends the command. -/
theorem encodeWithoutCapability : Obligations.EncodeWithoutCapability := by
  intro s k hs hlen hcap ha
  have hv : k.rejects = false := k.rejects_eq_false.mpr ⟨hlen, hcap⟩
  refine ⟨s.endCommand s.cur { k.accept with done := true }, _, ?_, endCommand_ctx hs.ctx _,
    accept_done_record k, rfl, (accept_done_stores k).ended, endCommand_same s s.cur _⟩
  rw [exec_encode hs, encodeOn_disabled s.cur hv ha]

/-- Settles O13: the run starts on the built table and ends after 32 groups. -/
theorem encodeBuildsTableAndEndsIdle : Obligations.EncodeBuildsTableAndEndsIdle := by
  intro s k h
  refine ⟨_, _, h.exec_encode, buildStep_endCommand_ctx h.sel.ctx _, s.buildStep_lutValid,
    s.buildStep_lut_eq h.table, ?_, ?_, rfl⟩
  · rw [Context.ended_phase, Context.runAll_phase]
  · rw [Context.ended_grp, Context.runAll_grp]

/-- An ENCODE that ran nothing has written the record alone, and no table. -/
structure State.RanNothing (s t : State) (k k' : Context) : Prop where
  accel : k'.accel = false
  stores : SameStores k k'
  lutValid : t.lutValid = s.lutValid
  lut : t.lut = s.lut

/-- The paths of ENCODE: it runs nothing, because it is rejected (R113) or the block is disabled (R114), or it makes a
full run (R116). -/
theorem encodeOn_endsWith {s : State} {c : Nat} {k : Context} (hk : s.ctxs[c]? = some k) :
    ∃ k', s.EndsWith (s.encodeOn c k) c k k' ∧
      (s.RanNothing (s.encodeOn c k) k k' ∨ k' = k.accept.runAll s.buildStep.lut) := by
  cases hv : k.rejects with
  | true =>
    rw [encodeOn_rejects c hv]
    exact ⟨_, endCommand_endsWith hk rfl, .inl ⟨rfl, rejected_stores k, rfl, rfl⟩⟩
  | false =>
    cases ha : s.accelEn with
    | false =>
      rw [encodeOn_disabled c hv ha]
      exact ⟨_, endCommand_endsWith hk rfl, .inl ⟨rfl, accept_done_stores k, rfl, rfl⟩⟩
    | true =>
      rw [encodeOn_runs c hv ha]
      exact ⟨_, buildStep_endCommand_endsWith hk (Context.runAll_held _ _), .inr rfl⟩

/-- Settles O14: an ENCODE that ran nothing kept every store, and a run writes OUT below COUNT only. -/
theorem encodeFrame : Obligations.EncodeFrame := by
  intro s t k hs ht
  cases (exec_encode hs).symm.trans ht
  obtain ⟨k', h, hpath⟩ := encodeOn_endsWith hs.ctx
  refine ⟨h.outside, h.cur, h.inputs, _, h.ctx, rfl, rfl, ?_⟩
  rcases hpath with hn | rfl
  · have hst := hn.stores
    exact ⟨hst.scan, hst.srcLen, hst.dstCap, hst.lutIdx, fun ha => absurd (ha.symm.trans hn.accel) nofun,
      fun _ => ⟨hst.ended, hn.lutValid, hn.lut⟩⟩
  · have hac := Context.runAll_accel s.buildStep.lut k.accept
    exact ⟨by simp, by simp, by simp, by simp, fun _ i => Context.runAll_out_tail _ k.accept i,
      fun ha => absurd (hac.symm.trans ha) nofun⟩

/-! ### What an ENCODE depends on (R123) -/

theorem Context.Record.agree {k l : Context} {done accel : Bool} {err : BitVec 4} {lenBad capBad : Bool}
    (hk : k.Record done accel err lenBad capBad) (hl : l.Record done accel err lenBad capBad) :
    k.Record l.done l.accel l.err l.lenBad l.capBad :=
  ⟨hk.done.trans hl.done.symm, hk.accel.trans hl.accel.symm, hk.err.trans hl.err.symm,
    hk.lenBad.trans hl.lenBad.symm, hk.capBad.trans hl.capBad.symm⟩

/-- The results of two runs over the same SCAN agree, whatever stood in the stores before (R166, R167). -/
theorem Context.DoneUpTo.agree {k l : Context} (hk : k.DoneUpTo 32) (hl : l.DoneUpTo 32) (hs : k.scan = l.scan) :
    k.count = l.count ∧ k.compacted = l.compacted ∧ k.rle = l.rle := by
  refine ⟨BitVec.eq_of_toNat_eq ?_, ?_, Vector.ext fun n hn => Vector.ext fun j hj => ?_⟩
  · rw [hk.count, hl.count, hs]
  · rw [hk.compacted, hl.compacted, hs]
  · have hword : (8 * n + j) / 8 = n := by omega
    have hbyte : (8 * n + j) % 8 = j := by omega
    have hg : 8 * n + j < 32 := by omega
    have hkj := hk.rle_byte ⟨8 * n + j, hg⟩
    have hlj := hl.rle_byte ⟨8 * n + j, hg⟩
    simp only [hword, hbyte] at hkj hlj
    rw [hkj, hlj, hs]

/-- Settles O19: the declarations and ACCEL_EN decide the path, and on each path the record is fixed; a run's results
are those of SCAN. -/
theorem encodeForgetsHistory : Obligations.EncodeForgetsHistory := by
  intro s₁ s₂ k₁ k₂ hs₁ hs₂ htab₁ htab₂ hscan hlen hcap hacc
  have hlenFails : k₂.lenFails = k₁.lenFails := by rw [Context.lenFails, Context.lenFails, hlen]
  have hcapFails : k₂.capFails = k₁.capFails := by rw [Context.capFails, Context.capFails, hcap]
  have hrej : k₂.rejects = k₁.rejects := by rw [Context.rejects, Context.rejects, hlenFails, hcapFails]
  rw [exec_encode hs₁, exec_encode hs₂]
  cases hv : k₁.rejects with
  | true =>
    rw [encodeOn_rejects _ hv, encodeOn_rejects _ (hrej.trans hv)]
    have hrec₂ := rejected_record k₂
    rw [hlenFails, hcapFails] at hrec₂
    exact ⟨_, _, _, _, rfl, rfl, endCommand_ctx hs₁.ctx _, endCommand_ctx hs₂.ctx _,
      (rejected_record k₁).agree hrec₂, nofun⟩
  | false =>
    cases ha : s₁.accelEn with
    | false =>
      rw [encodeOn_disabled _ hv ha, encodeOn_disabled _ (hrej.trans hv) (hacc.symm.trans ha)]
      exact ⟨_, _, _, _, rfl, rfl, endCommand_ctx hs₁.ctx _, endCommand_ctx hs₂.ctx _,
        (accept_done_record k₁).agree (accept_done_record k₂), nofun⟩
    | true =>
      rw [encodeOn_runs _ hv ha, encodeOn_runs _ (hrej.trans hv) (hacc.symm.trans ha), s₁.buildStep_lut_eq htab₁,
        s₂.buildStep_lut_eq htab₂]
      have hrun := k₁.accept.runAll_doneUpTo.agree k₂.accept.runAll_doneUpTo (by simp [hscan])
      exact ⟨_, _, _, _, rfl, rfl, buildStep_endCommand_ctx hs₁.ctx _, buildStep_endCommand_ctx hs₂.ctx _,
        (runAll_record buildLut k₁).agree (runAll_record buildLut k₂), fun _ => hrun⟩

/-! ### The commands that need no table, in their two forms (R9) -/

/-- Taken whole, a command leaves its context in no command (R122). -/
theorem exec_ends {s t : State} {i : Instr} {k : Context} (hs : s.Selected k) (h : exec i s = .next t) :
    ∃ k', t.ctxs[s.cur]? = some k' ∧ k'.busy = false := by
  obtain ⟨hidle, -⟩ := idle_of_not_busy hs.idle
  cases i with
  | lutbuild =>
    cases (exec_lutbuild hs).symm.trans h
    exact ⟨_, (lutbuildOn_endsWith hs.ctx).ctx, by simp [hidle]⟩
  | encode =>
    cases (exec_encode hs).symm.trans h
    obtain ⟨k', hends, hpath⟩ := encodeOn_endsWith hs.ctx
    refine ⟨_, hends.ctx, ?_⟩
    rcases hpath with hn | rfl
    · simp [hn.stores.phase, hidle]
    · simp

/-- A command that does not pass has ended when it is issued, as if taken whole (R113, R114). -/
theorem exec_of_not_passes {s : State} {k : Context} {i : Instr} (hs : s.Selected k) (hp : ¬ s.Passes k i) :
    exec i s = .next (s.issueOn s.cur k i) := by
  cases i with
  | lutbuild => rw [exec_lutbuild hs, issueOn_lutbuild_of_not_passes s.cur hp]
  | encode => rw [exec_encode hs, issueOn_encode_of_not_passes s.cur hp]

/-- Settles O44: the command does not pass, so both forms are one; taken whole, it ends. -/
theorem issuedCommandWithoutTableEqualsWhole : Obligations.IssuedCommandWithoutTableEqualsWhole := by
  intro s a c k rest i hplace hwidth halign hword hk hb hno
  obtain ⟨hwhole, hissue⟩ := step_of_command rest hplace hwidth halign hword hk hb
  have hs : State.Selected { s with inputs := rest, cur := c } k := ⟨hk, hb⟩
  have hp : ¬ State.Passes { s with inputs := rest, cur := c } k i := by
    rintro ⟨ha, hv⟩
    rcases hno with ⟨rfl, hr⟩ | hd
    · exact Bool.noConfusion (hr.symm.trans (hv rfl))
    · exact Bool.noConfusion (hd.symm.trans ha)
  have hexec := exec_of_not_passes hs hp
  obtain ⟨k', hk', hidle⟩ := exec_ends hs hexec
  exact ⟨hissue.trans (hwhole.trans hexec).symm, _, k', hissue, hk', hidle⟩

/-! ### Who asks for the table, and who writes it (R132) -/

theorem writeReg_pending {k k' : Context} {v : Word} {r : Reg} (h : k.writeReg v r = some k') :
    k'.pending = k.pending := by
  cases r with
  | srcLen | dstCap | lutIdx | scan => cases h; rfl
  | cmd | status | count | lutRow | rleLo | rleHi | out | reserved => cases h

/-- The schedule is in none of the conditions of a command. -/
theorem State.Commands.of_inputs {s : State} {inputs : List Event} {a : Access} {c : Nat} {k : Context} {i : Instr}
    (h : State.Commands { s with inputs := inputs } a c k i) : s.Commands a c k i :=
  ⟨h.place, h.width, h.aligned, h.word, h.ctx, h.idle, h.enabled, h.valid⟩

/-- A write of w to CMD asks for the table, or writes it, only if w is the word of a command that passes. -/
theorem AsksOnly.commandWrite {s t : State} {whole : Bool} {c : Nat} {k : Context} {w : Word}
    (hk : s.ctxs[c]? = some k) (hb : k.busy = false) (h : s.commandWrite whole c k w = .next t) :
    AsksOnly whole (fun d i => d = c ∧ w = encode i ∧ s.Passes k i) s t := by
  unfold State.commandWrite at h
  cases hd : decode w with
  | error e =>
    rw [hd] at h; cases h
    exact (AsksOnly.endCommand whole _ { s with cur := c } c _).of_select
  | ok i =>
    have hw := eq_encode_of_decode hd
    rw [hd] at h
    refine AsksOnly.of_select (c := c) (AsksOnly.mono (ok := fun d j => d = c ∧ j = i ∧ s.Passes k i) ?_ ?_)
    · cases whole with
      | false => cases h; exact AsksOnly.issueOn { s with cur := c } c k i
      | true => exact AsksOnly.exec (s := { s with cur := c }) ⟨hk, hb⟩ h
    · rintro d j ⟨hdc, rfl, hp⟩
      exact ⟨hdc, hw, hp⟩

/-- An access asks for the table, or writes it, only as a command that passes. -/
theorem AsksOnly.performAccess {s t : State} {whole : Bool} {a : Access} {c off : Nat} {k : Context}
    (hl : s.locate a.addr = some (c, off)) (hk : s.ctxs[c]? = some k) (hb : k.busy = false)
    (h : s.performAccess whole a c off k = .next t) :
    AsksOnly whole (fun d i => ∃ k, s.Commands a d k i) s t := by
  unfold State.performAccess at h
  cases ha : a.aligned with
  | false => simp only [ha] at h; cases h; exact .put hk _ rfl
  | true =>
    simp only [ha] at h
    cases hd : a.dir with
    | read =>
      simp only [hd] at h
      cases hr : s.readReg k (regAt off) <;> rw [hr] at h <;> cases h <;> exact .put hk _ rfl
    | write v =>
      simp only [hd] at h
      by_cases hc : regAt off = .cmd
      · obtain rfl := regAt_eq_cmd hc
        obtain ⟨hw4, ha4⟩ : a.width = 4 ∧ a.addr % 4 = 0 := by simpa [Access.aligned] using ha
        refine (AsksOnly.commandWrite (whole := whole) (w := v) hk hb h).mono ?_
        rintro d i ⟨rfl, rfl, hp⟩
        exact ⟨k, hl, hw4, ha4, hd, hk, hb, hp.1, hp.2⟩
      · simp only [hc] at h
        cases hw : k.writeReg v (regAt off) with
        | none => rw [hw] at h; cases h; exact .put hk _ rfl
        | some k' =>
          rw [hw] at h; cases h
          exact .put hk _ ((Context.respond_pending k' .ok).trans (writeReg_pending hw))

theorem AsksOnly.hostAccess {s t : State} {whole : Bool} {a : Access} (h : s.hostAccess whole a = .next t) :
    AsksOnly whole (fun c i => ∃ k, s.Commands a c k i) s t := by
  unfold State.hostAccess at h
  cases hl : s.locate a.addr with
  | none => rw [hl] at h; cases h; exact .refl _ _ _
  | some p =>
    obtain ⟨c, off⟩ := p
    simp only [hl] at h
    cases hk : s.ctxs[c]? with
    | none => rw [hk] at h; cases h; exact .refl _ _ _
    | some k =>
      simp only [hk] at h
      cases hb : k.busy with
      | true => rw [hb] at h; cases h; exact .put hk _ rfl
      | false => rw [hb] at h; exact AsksOnly.performAccess hl hk hb h

/-- A request there after an event was there before, or is an issued command's. -/
theorem takeEvent_pending {s t : State} {e : Event} (h : s.takeEvent e = .next t) {c : Nat} {k' : Context} {i : Instr}
    (hk : t.ctxs[c]? = some k') (hp : k'.pending = some i) :
    (∃ k, s.ctxs[c]? = some k ∧ k.pending = some i) ∨ ∃ a k, e = .issue a ∧ s.Commands a c k i := by
  cases e with
  | access a => exact .inl (((AsksOnly.hostAccess h).request c k' i hk hp).resolve_right fun hw => nomatch hw.1)
  | issue a =>
    exact ((AsksOnly.hostAccess h).request c k' i hk hp).imp_right fun ⟨_, k, hc⟩ => ⟨a, k, rfl, hc⟩
  | builder d => cases h; exact .inl (builderStep_pending s d hk hp)
  | sequencer d =>
    cases h
    exact .inl (((AsksOnly.sequencerStep false (fun _ _ => False) s d).request c k' i hk hp).resolve_right And.right)
  | reset b =>
    cases h
    obtain ⟨d, -, rfl⟩ := List.mem_map.mp (List.mem_of_getElem? hk)
    cases hp

/-- An event that is no reset writes the table only as the builder's for a request, or as a command taken whole. -/
theorem takeEvent_table {s t : State} {e : Event} (he : ∀ b, e ≠ .reset b) (h : s.takeEvent e = .next t)
    (hne : t.lutValid ≠ s.lutValid ∨ t.lut ≠ s.lut) :
    (∃ c k, e = .builder c ∧ s.ctxs[c]? = some k ∧ k.pending.isSome = true) ∨
      ∃ a c k i, e = .access a ∧ s.Commands a c k i := by
  have hnot : ¬ (t.lut = s.lut ∧ t.lutValid = s.lutValid) := fun ⟨hl, hv⟩ => hne.elim (· hv) (· hl)
  cases e with
  | access a =>
    obtain ⟨-, c, i, k, hc⟩ := (AsksOnly.hostAccess h).table.resolve_left hnot
    exact .inr ⟨a, c, k, i, rfl, hc⟩
  | issue a => exact nomatch ((AsksOnly.hostAccess h).table.resolve_left hnot).1
  | builder c =>
    cases h
    obtain ⟨k, hk, hp⟩ := builderStep_table s c hne
    exact .inl ⟨c, k, rfl, hk, hp⟩
  | sequencer c =>
    cases h
    have hsh := sequencerStep_shared s c
    exact absurd ⟨hsh.lut, hsh.lutValid⟩ hnot
  | reset b => exact absurd rfl (he b)

/-- With nothing scheduled the step is the builder's or a sequencer's for the first context inside a command, or
nothing: it makes no request. -/
theorem idleStep_pending (s : State) {c : Nat} {k' : Context} {i : Instr} (hk : s.idleStep.ctxs[c]? = some k')
    (hp : k'.pending = some i) : ∃ k, s.ctxs[c]? = some k ∧ k.pending = some i := by
  cases hf : s.ctxs[s.ctxs.findIdx Context.busy]? with
  | none => simp only [State.idleStep, hf] at hk; exact ⟨k', hk, hp⟩
  | some k =>
    rw [idleStep_of_busy hf] at hk
    cases hq : k.pending.isSome with
    | true => rw [hq] at hk; exact builderStep_pending s _ hk hp
    | false =>
      rw [hq] at hk
      exact ((AsksOnly.sequencerStep false (fun _ _ => False) s _).request c k' i hk hp).resolve_right And.right

/-- With nothing scheduled the table is written only for a request of the first context inside a command. -/
theorem idleStep_table (s : State) (hne : s.idleStep.lutValid ≠ s.lutValid ∨ s.idleStep.lut ≠ s.lut) :
    ∃ k, s.ctxs[s.ctxs.findIdx Context.busy]? = some k ∧ k.pending.isSome = true := by
  cases hf : s.ctxs[s.ctxs.findIdx Context.busy]? with
  | none => simp [State.idleStep, hf] at hne
  | some k =>
    refine ⟨k, rfl, ?_⟩
    by_contra hq
    have hsh := sequencerStep_shared s (s.ctxs.findIdx Context.busy)
    rw [idleStep_of_busy hf, if_neg hq] at hne
    exact hne.elim (· hsh.lutValid) (· hsh.lut)

/-- The step with nothing scheduled. -/
theorem step_idle {s : State} (h : s.inputs = []) : step s = .next s.idleStep := by
  simp only [step, State.stepOnce, h]

/-- Settles O40: by the event that the step takes, or with none by the context that goes on. -/
theorem tableIsBuiltOnlyOnRequest : Obligations.TableIsBuiltOnlyOnRequest := by
  refine ⟨?requests, ?writes⟩
  case requests =>
    intro s t c k' i hst hk hp
    cases hin : s.inputs with
    | nil =>
      cases (step_idle hin).symm.trans hst
      exact .inl (idleStep_pending s hk hp)
    | cons e rest =>
      rw [step_of_inputs hin] at hst
      refine (takeEvent_pending hst hk hp).imp_right ?_
      rintro ⟨a, k, rfl, hc⟩
      exact ⟨a, rest, k, rfl, hc.of_inputs⟩
  case writes =>
    intro s t hst hreset hne
    cases hin : s.inputs with
    | nil =>
      cases (step_idle hin).symm.trans hst
      obtain ⟨k, hk, hp⟩ := idleStep_table s hne
      exact .inl ⟨_, k, hk, hp, .inr (.inr ⟨hin, rfl⟩)⟩
    | cons e rest =>
      rw [step_of_inputs hin] at hst
      have he : ∀ b, e ≠ .reset b := by
        rintro b rfl
        simp [State.resetNext, hin] at hreset
      refine (takeEvent_table he hst hne).imp ?_ ?_
      · rintro ⟨c, k, rfl, hk, hp⟩
        exact ⟨c, k, hk, hp, .inl ⟨by rw [hin]; rfl, hp⟩⟩
      · rintro ⟨a, c, k, i, rfl, hc⟩
        exact ⟨a, rest, c, k, i, rfl, hc.of_inputs⟩

/-- Settles O28: a request, like a command that may write the table, is there only on an enabled block. -/
theorem disabledBlockNeverBuilds : Obligations.DisabledBlockNeverBuilds := by
  intro s t hinv hst hreset ha
  have hv : s.lutValid = false := by
    by_contra hv
    exact Bool.noConfusion (ha.symm.trans (hinv.table_enabled (by simpa using hv)))
  by_contra hchanged
  have hne : t.lutValid ≠ s.lutValid ∨ t.lut ≠ s.lut := by
    rw [hv]; exact not_and_or.mp hchanged
  obtain ⟨-, writes⟩ := tableIsBuiltOnlyOnRequest
  rcases writes s t hst hreset hne with ⟨c, k, hk, hp, -⟩ | ⟨a, rest, c, k, i, -, hc⟩
  · exact Bool.noConfusion (ha.symm.trans ((hinv.ok_of_ctx hk).pending_idle hp).1)
  · exact Bool.noConfusion (ha.symm.trans hc.enabled)

/-! ### Two contexts that wait for the builder (R131) -/

/-- The builder's steps for two waiting contexts serve each, and leave the table of the first. -/
theorem builderStep_twice {s : State} {a b : Nat} {ka kb : Context} {i j : Instr} (hab : a ≠ b)
    (ha : s.ctxs[a]? = some ka) (hb : s.ctxs[b]? = some kb) (hi : ka.pending = some i) (hj : kb.pending = some j) :
    ((s.builderStep a).builderStep b).ctxs = (s.ctxs.set a (ka.served i)).set b (kb.served j) ∧
      ((s.builderStep a).builderStep b).lut = (s.builderStep a).lut ∧
      ((s.builderStep a).builderStep b).lutValid = true := by
  obtain ⟨hctxs, -, hvalid⟩ := builderStep_self ha hi
  have hb' : (s.builderStep a).ctxs[b]? = some kb := by rw [builderStep_other s hab.symm, hb]
  obtain ⟨hctxs', hlut', hvalid'⟩ := builderStep_self hb' hj
  rw [State.buildStep_lutValid] at hvalid hvalid'
  rw [State.buildStep_of_valid _ hvalid] at hlut'
  exact ⟨by rw [hctxs', hctxs], hlut', hvalid'⟩

/-- Settles O37: the first build step writes the table, the second finds it, and each serves its own context. -/
theorem racingBuildsAgree : Obligations.RacingBuildsAgree := by
  intro s a b ka kb hab hv ha hb hpa hpb
  obtain ⟨i, hi⟩ := Option.isSome_iff_exists.mp hpa
  obtain ⟨j, hj⟩ := Option.isSome_iff_exists.mp hpb
  obtain ⟨-, hlut, hvalid⟩ := builderStep_self ha hi
  obtain ⟨hctxs_ab, hlut_ab, hvalid_ab⟩ := builderStep_twice hab ha hb hi hj
  obtain ⟨hctxs_ba, -, -⟩ := builderStep_twice hab.symm hb ha hj hi
  have hbuilt : (s.builderStep a).lut = buildLut := by
    rw [hlut, s.buildStep_lut_eq fun ht => Bool.noConfusion (hv.symm.trans ht)]
  refine ⟨by rw [hvalid, State.buildStep_lutValid], hbuilt, hvalid_ab, hlut_ab.trans hbuilt, ?_⟩
  rw [hctxs_ab, hctxs_ba, List.set_comm _ _ hab]

/-! ### How long a run takes (R170) -/

/-- Settles O38: the sequencer's steps before the last are group steps, and the last is the end of the command. -/
theorem runEndsAfterRemainingSteps : Obligations.RunEndsAfterRemainingSteps := by
  intro s c k n rest hk hr hg hn
  have hadvance := Context.groupSteps_grp s.lut n k (by omega)
  by_cases hlast : n = 32 - k.grp.toNat
  · obtain ⟨m, rfl⟩ : ∃ m, n = m + 1 := ⟨n - 1, by omega⟩
    refine ⟨_, _, run_to_end m s c k rest hk hr (by omega), ?_, endCommand_ctx hk _, fun hlt => ?_, fun _ => ?_⟩
    · simp [hlast]
    · omega
    · refine ⟨rfl, BitVec.eq_of_toNat_eq ?_, rfl, rfl⟩
      rw [Context.ended_grp, Context.completeRun_grp, hadvance, BitVec.toNat_ofNat]
      omega
  · refine ⟨_, _, run_groups n s c k rest hk hr (by omega), by rw [if_neg hlast], set_getElem?_self hk _,
      fun _ => ⟨?_, hadvance⟩, fun he => absurd he hlast⟩
    rw [Context.groupSteps_phase, hr]

end Sys2Proof.Machine

/-! The LUT builder (spec/41_lut_builder.md): what the rows of the table are (R130, R136, R200), that a built table
stays until reset (R134), which steps are not enabled (R131, R132, R236), and how far each step takes a command in
progress (R261). -/

namespace Sys2Proof.Machine

open Sys2Proof

/-! ### The rows of the table (R130, R136) -/

/-- The lanes whose bit of m is unset, in ascending order. -/
def keptLanes (m : Mask) : List (Fin 8) := lanes.filter fun b => !m.getLsbD b.val

theorem unsetLanes_eq (m : Mask) : unsetLanes m = (keptLanes m).map fun b => BitVec.ofNat 3 b.val := rfl

theorem keptLanes_length (m : Mask) : (keptLanes m).length = 8 - popcount8 m := by
  have h : lanes.length = popcount8 m + (keptLanes m).length := by
    rw [popcount8, List.countP_eq_length_filter]
    exact List.length_eq_length_filter_add fun b : Fin 8 => m.getLsbD b.val
  rw [show lanes.length = 8 from rfl] at h
  omega

theorem keptLanes_pairwise (m : Mask) : (keptLanes m).Pairwise (· < ·) :=
  List.Pairwise.filter _ (List.sortedLT_finRange 8).pairwise

/-- The kept lanes are unset bits. -/
theorem getLsbD_of_mem_keptLanes {m : Mask} {b : Fin 8} (h : b ∈ keptLanes m) : m.getLsbD b.val = false := by
  simpa using (List.mem_filter.mp h).2

/-- The first entries of a row are the kept lanes. -/
theorem rowOf_toNat (m : Mask) {j : Nat} (hj : j < (keptLanes m).length) (h8 : j < 8) :
    ((rowOf m)[j]).toNat = (keptLanes m)[j].val := by
  rw [rowOf, tabulate8_getElem, unsetLanes_eq, List.getD_eq_getElem _ _ (by simpa using hj), List.getElem_map,
    BitVec.toNat_ofNat]
  exact Nat.mod_eq_of_lt (keptLanes m)[j].isLt

/-- The entries after the kept lanes are 0. -/
theorem rowOf_padding (m : Mask) {j : Nat} (hj : (keptLanes m).length ≤ j) (h8 : j < 8) : (rowOf m)[j] = 0#3 := by
  rw [rowOf, tabulate8_getElem, unsetLanes_eq, List.getD_eq_default _ _ (by simpa using hj)]

/-- In a strictly ascending list as many elements are below the one at place j as stand before it. -/
theorem length_filter_lt_getElem {n : Nat} {l : List (Fin n)} (h : l.Pairwise (· < ·)) {j : Nat} (hj : j < l.length) :
    (l.filter fun b => b.val < l[j].val).length = j := by
  induction l generalizing j with
  | nil => nomatch hj
  | cons x xs ih =>
    obtain ⟨hx, hxs⟩ := List.pairwise_cons.mp h
    cases j with
    | zero =>
      rw [List.length_eq_zero_iff, List.filter_eq_nil_iff]
      intro b hb
      rcases List.mem_cons.mp hb with rfl | hb
      · simp
      · simpa using (hx b hb).le
    | succ j =>
      have hlt : x.val < (xs[j]'(Nat.lt_of_succ_lt_succ hj)).val := hx _ (List.getElem_mem _)
      rw [List.getElem_cons_succ, List.filter_cons_of_pos (by simpa using hlt), List.length_cons, ih hxs]

/-- Below the kept lane at place j stand exactly j unset bits. -/
theorem unset_below_keptLanes (m : Mask) {j : Nat} (hj : j < (keptLanes m).length) :
    ((List.finRange 8).filter fun b => b.val < (keptLanes m)[j].val && !m.getLsbD b.val).length = j := by
  rw [← List.filter_filter]
  exact length_filter_lt_getElem (keptLanes_pairwise m) hj

/-- Settles O22: a row is the ascending list of the kept lanes, padded with 0. -/
theorem tableRowsListUnsetBits : Obligations.TableRowsListUnsetBits := by
  intro m j
  rw [lutRead_buildLut, ← keptLanes_length]
  refine ⟨fun hj => ?kept, fun hj => rowOf_padding m hj j.isLt⟩
  case kept =>
    rw [rowOf_toNat m hj j.isLt]
    refine ⟨getLsbD_of_mem_keptLanes (List.getElem_mem hj), unset_below_keptLanes m hj, fun i hi => ?_⟩
    rw [rowOf_toNat m (hi.trans hj) i.isLt]
    exact List.pairwise_iff_getElem.mp (keptLanes_pairwise m) i.val j.val (hi.trans hj) hj hi

/-! ### The listing of the table (R200) -/

/-- The listing, row by row. -/
theorem lutListing_eq : lutListing = (List.range 256).map fun n => packRow (rowOf (BitVec.ofNat 8 n)) := by
  decide +kernel

/-- Settles O23: the listing is that of the rows, and the kept count is the number of kept lanes. -/
theorem tableIsAsListed : Obligations.TableIsAsListed := by
  refine ⟨by simp [lutListing_eq], fun m => ⟨?row, ?count⟩⟩
  case row => simp [lutListing_eq, lutRead_buildLut, m.isLt]
  case count => exact (popcnt8_toNat m).trans (keptLanes_length m)

/-! ### A built table stays (R134) -/

theorem lutbuildOn_keeps_table {s : State} (hv : s.lutValid = true) (c : Nat) (k : Context) :
    (s.lutbuildOn c k).lutValid = true ∧ (s.lutbuildOn c k).lut = s.lut := by
  simp [lutbuildOn_lutValid, lutbuildOn_lut, hv]

theorem encodeOn_keeps_table {s : State} (hv : s.lutValid = true) (c : Nat) (k : Context) :
    (s.encodeOn c k).lutValid = true ∧ (s.encodeOn c k).lut = s.lut := by
  rw [State.encodeOn, s.buildStep_of_valid hv]
  have ends : ∀ k', (s.endCommand c k').lutValid = true ∧ (s.endCommand c k').lut = s.lut := fun _ => ⟨hv, rfl⟩
  split
  · exact ends _
  · split
    · exact ends _
    · exact ends _

/-- An issued command writes no table, whether it waits or has ended. -/
theorem issueOn_keeps_table (s : State) (c : Nat) (k : Context) (i : Instr) :
    (s.issueOn c k i).lutValid = s.lutValid ∧ (s.issueOn c k i).lut = s.lut :=
  have h := (AsksOnly.issueOn s c k i).table.resolve_right fun hw => nomatch hw.1
  ⟨h.2, h.1⟩

/-- No move writes the table once it is there: the build step then has no effect (R131), and nothing else writes it. -/
theorem Move.keeps_table {s t : State} (h : Move s t) (hv : s.lutValid = true) :
    t.lutValid = true ∧ t.lut = s.lut := by
  cases h with
  | stay | hold | answer | write | illegal | group | complete => exact ⟨hv, rfl⟩
  | lutbuild c k => exact lutbuildOn_keeps_table (s := { s with cur := c }) hv c k
  | encode c k => exact encodeOn_keeps_table (s := { s with cur := c }) hv c k
  | issue c k i =>
    obtain ⟨hvalid, hlut⟩ := issueOn_keeps_table { s with cur := c } c k i
    exact ⟨hvalid.trans hv, hlut⟩
  | buildEnd c k | buildRun c k => rw [s.buildStep_of_valid hv]; exact ⟨hv, rfl⟩

/-- Settles O27: a step that is no reset is a move, and no move writes a table that is there. -/
theorem builtTableIsImmutable : Obligations.BuiltTableIsImmutable := by
  intro s t hst hreset hv
  rcases step_move s with ⟨b, rest, hin, -⟩ | ⟨-, u, hu, hm⟩
  · simp [State.resetNext, hin] at hreset
  · cases hu.symm.trans hst
    exact hm.keeps_table hv

/-! ### Steps that are not enabled (R132, R161, R236) -/

theorem builderStep_of_no_request {s : State} {c : Nat} (h : ∀ k, s.ctxs[c]? = some k → k.pending = none) :
    s.builderStep c = s := by
  cases hk : s.ctxs[c]? with
  | none => simp only [State.builderStep, hk]
  | some k => exact builderStep_none hk (h k hk)

theorem sequencerStep_of_no_run {s : State} {c : Nat} (h : ∀ k, s.ctxs[c]? = some k → k.phase = .idle) :
    s.sequencerStep c = s := by
  cases hk : s.ctxs[c]? with
  | none => simp only [State.sequencerStep, hk]
  | some k => simp only [State.sequencerStep, hk, h k hk]

theorem idleStep_of_no_command {s : State} (h : ∀ k ∈ s.ctxs, k.busy = false) : s.idleStep = s := by
  have hfind : s.ctxs.findIdx Context.busy = s.ctxs.length := List.findIdx_eq_length.mpr h
  simp [State.idleStep, hfind]

/-- Settles O39: the builder finds no request, the sequencer no run, and the empty schedule no command. -/
theorem stepsNotEnabledChangeNothing : Obligations.StepsNotEnabledChangeNothing := by
  refine ⟨?builder, ?sequencer, ?nothing⟩
  case builder =>
    intro s c rest hin h
    rw [step_of_inputs hin]
    exact congrArg Host.Outcome.next (builderStep_of_no_request (s := { s with inputs := rest }) h)
  case sequencer =>
    intro s c rest hin h
    rw [step_of_inputs hin]
    exact congrArg Host.Outcome.next (sequencerStep_of_no_run (s := { s with inputs := rest }) h)
  case nothing =>
    intro s hin h
    rw [step_idle hin, idleStep_of_no_command h]

/-! ### How far a step takes a command in progress (R261) -/

/-- In t the command of context c, whose content was k, needs no more steps than before, and one less when `own` holds:
when the step to t was one of the command's own. -/
def State.Advances (t : State) (c : Nat) (k : Context) (own : Prop) : Prop :=
  ∃ k', t.ctxs[c]? = some k' ∧ k'.stepsLeft ≤ k.stepsLeft ∧ (own → k'.stepsLeft + 1 = k.stepsLeft)

/-- A content with the same steps left, after a step that is not the command's own. -/
theorem State.Advances.same {t : State} {c : Nat} {k k' : Context} {own : Prop} (hk : t.ctxs[c]? = some k')
    (hl : k'.stepsLeft = k.stepsLeft) (hown : ¬ own) : t.Advances c k own :=
  ⟨k', hk, hl.le, fun h => absurd h hown⟩

/-- A content with one step less to go. -/
theorem State.Advances.one {t : State} {c : Nat} {k k' : Context} (own : Prop) (hk : t.ctxs[c]? = some k')
    (hl : k'.stepsLeft + 1 = k.stepsLeft) : t.Advances c k own :=
  ⟨k', hk, by omega, fun _ => hl⟩

theorem State.Advances.imp {t : State} {c : Nat} {k : Context} {own own' : Prop} (h : t.Advances c k own)
    (hown : own' → own) : t.Advances c k own' := by
  obtain ⟨k', hk, hle, hone⟩ := h
  exact ⟨k', hk, hle, hone ∘ hown⟩

section

variable {s t : State} {c : Nat} {k : Context}

/-- The builder's step for context d is c's own when it is for c and c has a request. -/
theorem builderStep_advances (hok : Context.Ok s.accelEn s.lutValid k) (hk : s.ctxs[c]? = some k) (d : Nat) :
    (s.builderStep d).Advances c k (d = c ∧ k.pending.isSome = true) := by
  by_cases hd : d = c
  · subst hd
    cases hp : k.pending with
    | none => exact .same ((builderStep_none hk hp).symm ▸ hk) rfl (by simp)
    | some i =>
      obtain ⟨-, hidle⟩ := hok.pending_idle (by simp [hp])
      obtain ⟨hctxs, -, -⟩ := builderStep_self hk hp
      exact .one _ (hctxs ▸ set_getElem?_self hk _) (Context.served_left hp hidle).1
  · exact .same ((builderStep_other s (Ne.symm hd)).trans hk) rfl fun h => hd h.1

/-- The step of context d's sequencer is c's own when d is c and c runs. -/
theorem sequencerStep_advances (hok : Context.Ok s.accelEn s.lutValid k) (hk : s.ctxs[c]? = some k) (d : Nat) :
    (s.sequencerStep d).Advances c k (d = c ∧ k.phase = .run) := by
  by_cases hd : d = c
  · subst hd
    have hself := sequencerStep_self hk
    cases hr : k.phase with
    | idle =>
      simp only [Context.sequenced, hr] at hself
      exact .same hself rfl (by simp)
    | run =>
      have hp : k.pending = none := by
        by_contra hp
        exact nomatch hr.symm.trans (hok.pending_idle (Option.isSome_iff_ne_none.mpr hp)).2
      exact .one _ hself (Context.sequenced_left s.lut hp hr (hok.run_bound hr).2).1
  · exact .same ((sequencerStep_other s (Ne.symm hd)).trans hk) rfl fun h => hd h.1

/-- With nothing scheduled the step is c's own when c is the first context inside a command. -/
theorem idleStep_advances (hok : Context.Ok s.accelEn s.lutValid k) (hk : s.ctxs[c]? = some k) (hb : k.busy = true) :
    s.idleStep.Advances c k (s.ctxs.findIdx Context.busy = c) := by
  have hfind : s.ctxs.findIdx Context.busy < s.ctxs.length :=
    List.findIdx_lt_length_of_exists ⟨k, List.mem_of_getElem? hk, hb⟩
  obtain ⟨f, hf⟩ : ∃ f, s.ctxs[s.ctxs.findIdx Context.busy]? = some f := ⟨_, List.getElem?_eq_getElem hfind⟩
  have hfirst : s.ctxs.findIdx Context.busy = c → f = k := by
    intro hc
    rw [hc, hk] at hf
    exact (Option.some.inj hf).symm
  rw [idleStep_of_busy hf]
  by_cases hp : f.pending.isSome = true
  · rw [if_pos hp]
    exact (builderStep_advances hok hk _).imp fun hc => ⟨hc, hfirst hc ▸ hp⟩
  · rw [if_neg hp]
    refine (sequencerStep_advances hok hk _).imp fun hc => ⟨hc, ?_⟩
    rw [hfirst hc] at hp
    simpa [Context.busy, hp] using hb

/-- A host access to a page leaves the command of context c where it is: it goes to another context's page, or is held
(R69). -/
theorem takeEvent_access_advances (hk : s.ctxs[c]? = some k) (hb : k.busy = true) {e : Event} {a : Access}
    (he : e = .access a ∨ e = .issue a) (h : s.takeEvent e = .next t) : t.Advances c k False := by
  have hn : ∀ b, e ≠ .reset b := by rcases he with rfl | rfl <;> nofun
  have htarget : s.target e = (s.locate a.addr).map (·.1) := by rcases he with rfl | rfl <;> rfl
  by_cases hc : s.target e = some c
  · obtain ⟨⟨d, off⟩, hl, rfl⟩ := Option.map_eq_some_iff.mp (htarget.symm.trans hc)
    cases (takeEvent_held he hl hk hb).symm.trans h
    exact .same (set_getElem?_self hk _) (Context.stepsLeft_congr rfl rfl rfl).1 not_false
  · exact .same ((takeEvent_other hn h hc).trans hk) rfl not_false

/-- An event that is no reset is c's own when it is the builder's for c's request, or c's sequencer's during its run. -/
theorem takeEvent_advances (hok : Context.Ok s.accelEn s.lutValid k) (hk : s.ctxs[c]? = some k) (hb : k.busy = true)
    {e : Event} (he : ∀ b, e ≠ .reset b) (h : s.takeEvent e = .next t) :
    t.Advances c k ((e = .builder c ∧ k.pending.isSome = true) ∨ (e = .sequencer c ∧ k.phase = .run)) := by
  cases e with
  | access a => exact (takeEvent_access_advances hk hb (.inl rfl) h).imp (by simp)
  | issue a => exact (takeEvent_access_advances hk hb (.inr rfl) h).imp (by simp)
  | builder d => cases h; exact (builderStep_advances hok hk d).imp (by simp)
  | sequencer d => cases h; exact (sequencerStep_advances hok hk d).imp (by simp)
  | reset b => exact absurd rfl (he b)

/-- A step that is no reset is c's own when it drives c. -/
theorem step_advances (hok : Context.Ok s.accelEn s.lutValid k) (hst : step s = .next t) (hreset : s.resetNext = false)
    (hk : s.ctxs[c]? = some k) (hb : k.busy = true) : t.Advances c k (s.Drives c k) := by
  cases hin : s.inputs with
  | nil =>
    cases (step_idle hin).symm.trans hst
    exact (idleStep_advances hok hk hb).imp (by simp [State.Drives, hin])
  | cons e rest =>
    rw [step_of_inputs hin] at hst
    have he : ∀ b, e ≠ .reset b := by
      rintro b rfl
      simp [State.resetNext, hin] at hreset
    exact (takeEvent_advances (s := { s with inputs := rest }) hok hk hb he hst).imp (by simp [State.Drives, hin])

end

/-- Settles O41: the invariant bounds the steps left and ties them to being inside a command, before the step and after
it. -/
theorem commandsInProgressAdvance : Obligations.CommandsInProgressAdvance := by
  intro s t c k hinv hst hreset hk hb
  have hok := hinv.ok_of_ctx hk
  obtain ⟨k', hk', hle, hone⟩ := step_advances hok hst hreset hk hb
  have hok' := (everyStepKeepsInvariant s t hinv hst).ok_of_ctx hk'
  exact ⟨hok.stepsLeft.2.mp hb, hok.stepsLeft.1, k', hk', hle, hone, hok'.stepsLeft.2⟩

end Sys2Proof.Machine

/-! The pixel duplicate detector (spec/42_pixel_duplicate_detector.md): the duplicate flags of the reference contracts as
equalities of pixels (R180), and the detector's mask against them (R147). -/

namespace Sys2Proof.Machine

open Sys2Proof

/-! ### The duplicate flag of a pixel (R180) -/

/-- Pixel 0 is compared with the sentinel. -/
theorem dupFlag_zero_iff (S : Pixels) : dupFlag S 0 = true ↔ S[0] = sentinel := by
  rw [dupFlag, if_pos rfl, beq_iff_eq]

/-- Every other pixel is compared with the one before it, wherever its group begins. -/
theorem dupFlag_succ_iff (S : Pixels) (p : Nat) (h : p + 1 < 256) : dupFlag S (p + 1) = true ↔ S[p + 1] = S[p] := by
  rw [dupFlag, if_neg p.succ_ne_zero, beq_iff_eq, Nat.add_sub_cancel, Vector.getElem?_eq_getElem h,
    Vector.getElem?_eq_getElem (Nat.lt_of_succ_lt h), Option.some_inj]

/-! ### The detector's mask (R147) -/

/-- Settles O20: a bit of the mask is the flag of its pixel, and the flag's two cases are pixel 0 and all others. -/
theorem maskBitIsDuplicateFlag : Obligations.MaskBitIsDuplicateFlag := by
  intro S g i
  have hbit := dupMask_getLsbD S g i
  refine ⟨hbit, fun h0 => ?_, fun p hp => ?_⟩
  · rw [hbit, h0]
    exact dupFlag_zero_iff S
  · rw [hbit, hp]
    exact dupFlag_succ_iff S p (by omega)

end Sys2Proof.Machine

/-! The lane compactor (spec/43_permutation_table_lane_compactor.md): which pixel stands in which staging slot (R155), and
how far one group step can move COUNT (R168). -/

namespace Sys2Proof.Machine

open Sys2Proof

/-! ### The staging slots (R155) -/

/-- A lane is kept exactly when its bit is unset. -/
theorem mem_keptLanes {m : Mask} {b : Fin 8} : b ∈ keptLanes m ↔ m.getLsbD b.val = false := by
  refine ⟨getLsbD_of_mem_keptLanes, fun hb => List.mem_filter.mpr ⟨?_, (Bool.not_eq_true' _).mpr hb⟩⟩
  rw [lanes_eq_finRange]
  exact List.mem_finRange b

/-- A kept lane's place among the kept lanes is the number of unset bits below it. -/
theorem keptLanes_getElem?_unset_below {m : Mask} {b : Fin 8} (hb : m.getLsbD b.val = false) :
    (keptLanes m)[((List.finRange 8).filter fun a => a.val < b.val && !m.getLsbD a.val).length]? = some b := by
  obtain ⟨j, hj, rfl⟩ := List.getElem_of_mem (mem_keptLanes.mpr hb)
  rw [unset_below_keptLanes m hj, List.getElem?_eq_getElem hj]

/-- Settles O21: the staged slots are the pixels of the kept lanes, one by one, so a slot is its lane's place among them. -/
theorem stagedSlotsAreKeptPixels : Obligations.StagedSlotsAreKeptPixels := by
  intro pix m
  have hstaged : staged pix (lutRead buildLut m) (popcnt8 m) = (keptLanes m).map fun b => pix[b.val] := staged_eq pix m
  rw [hstaged]
  refine ⟨(List.length_map _).trans (keptLanes_length m), fun b hb => ?slot⟩
  case slot => rw [List.getElem?_map, keptLanes_getElem?_unset_below hb, Option.map_some]

/-! ### The bounds of a group step (R168) -/

/-- Settles O26: a step adds at most 8 to a COUNT of at most 8g, and 8(g + 1) is at most 256. -/
theorem groupStepBounds : Obligations.GroupStepBounds := by
  intro lut k g hg hc
  have hlt : k.grp.toNat < 32 := hg ▸ g.isLt
  have hkept : (popcnt8 (dupMask k.scan g)).toNat ≤ 8 := popcnt8_le _
  have hsum : k.count.toNat + (popcnt8 (dupMask k.scan g)).toNat ≤ 256 := by omega
  refine ⟨hkept, hsum, Context.groupStep_bound lut k hlt (hg ▸ hc), ?_⟩
  rw [Context.groupStep_count lut k g hg hc]
  exact hsum

end Sys2Proof.Machine

/-! The scanline encoder (spec/44_scanline_rle_encoder.md): what one group step writes and leaves (R161 to R165), what every
run in progress has produced so far, under the steps of all agents (R167, R170), and what a completed run leaves (R166,
R169, R182). -/

namespace Sys2Proof.Machine

open Sys2Proof

/-! ### One group step (R161 to R165) -/

/-- Settles O24: bit b of a word is bit b mod 8 of its byte b / 8, and MASK_PACK replaces one byte. -/
theorem maskPackReplacesEightBits : Obligations.MaskPackReplacesEightBits := by
  intro rle g mask n b
  have hbyte : b.val / 8 < 8 := by omega
  have hbit : b.val % 8 < 8 := by omega
  have hb : b.val = 8 * (b.val / 8) + b.val % 8 := by omega
  have hword : ∀ w : BlockBytes, (blockWord w).getLsbD b.val = (w[b.val / 8]).getLsbD (b.val % 8) := fun w =>
    (congrArg _ hb).trans (blockWord_getLsbD w _ _ hbyte hbit)
  rw [hword, hword, maskPack_getElem rle g mask n.val _ n.isLt hbyte]
  split <;> rfl

/-- Settles O25: the step's lemma for each field it writes; the others are its frame. -/
theorem groupStepEffect : Obligations.GroupStepEffect := by
  intro lut k g hg hc
  have hlen := staged_length (pixload k.scan g) (lutRead lut (dupMask k.scan g)) (dupMask k.scan g)
  refine ⟨hlen, fun i => ?out, Context.groupStep_count lut k g hg hc, Context.groupStep_rle lut k g hg, ?grp, rfl⟩
  case out => simp only [Context.groupStep_out lut k g hg, appendOut_getElem _ _ _ _ i.isLt, hlen]
  case grp => rw [Context.groupStep_grp lut k (hg ▸ g.isLt), hg]

/-! ### The partial result of one context (R167) -/

/-- A run that has just started has nothing to show yet (R116). -/
theorem Context.startRun_partial (k : Context) : k.startRun.Partial :=
  k.startRun.partial_iff.mpr fun _ => k.startRun_doneUpTo

/-- With the built table, a group step keeps the partial result right (R161). -/
theorem Context.Partial.groupStep {k : Context} (h : k.Partial) (hr : k.phase = .run) (hg : k.grp.toNat < 32) :
    (k.groupStep buildLut).Partial := by
  refine (k.groupStep buildLut).partial_iff.mpr fun _ => ?_
  rw [Context.groupStep_grp buildLut k hg]
  exact Context.groupStep_doneUpTo k ⟨k.grp.toNat, hg⟩ rfl (k.partial_iff.mp h hr)

/-- The accesses a context holds are no part of its partial result (R69). -/
theorem Context.Partial.hold {k : Context} (h : k.Partial) (e : Event) :
    Context.Partial { k with held := k.held ++ [e] } := h

/-- Nor is the port's response (R77). -/
theorem Context.Partial.respond {k : Context} (h : k.Partial) (r : Response) : (k.respond r).Partial := h

/-- A run group-steps with the built table (R47c, R47f). -/
theorem State.Inv.lut_of_run {s : State} (h : s.Inv) {c : Nat} {k : Context} (hk : s.ctxs[c]? = some k)
    (hr : k.phase = .run) : s.lut = buildLut := by
  obtain ⟨hvalid, -⟩ := (h.ok_of_ctx hk).run_table hr
  exact h.table hvalid

/-- A register write leaves PHASE (R118). -/
theorem writeReg_phase {k k' : Context} {v : Word} {r : Reg} (h : k.writeReg v r = some k') : k'.phase = k.phase := by
  cases r with
  | srcLen | dstCap | lutIdx | scan => cases h; rfl
  | cmd | status | count | lutRow | rleLo | rleHi | out | reserved => cases h

/-! ### The partial results of the machine under every step (R167, R170) -/

/-- A step that changes one context only, to one whose partial result is right, keeps the others' partial results. -/
theorem State.PartialResults.replace {s t : State} (h : s.PartialResults) {c : Nat} (hs : SameOutside c s t)
    {k : Context} (hc : t.ctxs[c]? = some k) (hk : k.Partial) : t.PartialResults := by
  intro k' hk'
  obtain ⟨d, hd⟩ := List.getElem?_of_mem hk'
  by_cases hdc : d = c
  · subst hdc
    cases hc.symm.trans hd
    exact hk
  · exact h k' (List.mem_of_getElem? ((hs.others d hdc).symm.trans hd))

/-- A new content of context c whose partial result is right. -/
theorem State.PartialResults.putCtx {s : State} (h : s.PartialResults) {c : Nat} {k k' : Context}
    (hk : s.ctxs[c]? = some k) (hk' : k'.Partial) : (s.putCtx c k').PartialResults :=
  h.replace (putCtx_same s c k').toSameOutside (set_getElem?_self hk k') hk'

/-- The end of a command leaves its context idle, with nothing to show (R122, R39). -/
theorem State.PartialResults.endsWith {s t : State} (h : s.PartialResults) {c : Nat} {k k' : Context}
    (he : s.EndsWith t c k k') (hi : k'.phase = .idle) : t.PartialResults :=
  h.replace he.outside he.ctx (Context.partial_of_idle hi)

theorem State.PartialResults.lutbuildOn {s : State} (h : s.PartialResults) {c : Nat} {k : Context}
    (hk : s.ctxs[c]? = some k) (hi : k.phase = .idle) : (s.lutbuildOn c k).PartialResults :=
  h.endsWith (lutbuildOn_endsWith hk) hi

theorem State.PartialResults.encodeOn {s : State} (h : s.PartialResults) {c : Nat} {k : Context}
    (hk : s.ctxs[c]? = some k) (hi : k.phase = .idle) : (s.encodeOn c k).PartialResults := by
  obtain ⟨k', he, hn | rfl⟩ := encodeOn_endsWith hk
  · exact h.endsWith he (hn.stores.phase.trans hi)
  · exact h.endsWith he (Context.runAll_phase _ _)

/-- An issued command waits for the builder, its context idle, or has ended as if taken whole. -/
theorem State.PartialResults.issueOn {s : State} (h : s.PartialResults) {c : Nat} {k : Context}
    (hk : s.ctxs[c]? = some k) (hi : k.phase = .idle) (i : Instr) : (s.issueOn c k i).PartialResults := by
  by_cases hp : s.Passes k i
  · obtain ⟨ha, hv⟩ := hp
    rw [issueOn_waits c k ha hv]
    exact h.putCtx hk (Context.partial_of_idle hi)
  · cases i with
    | lutbuild => rw [issueOn_lutbuild_of_not_passes c hp]; exact h.lutbuildOn hk hi
    | encode => rw [issueOn_encode_of_not_passes c hp]; exact h.encodeOn hk hi

/-- A move changes one context: an idle one stays idle or starts a run from 0, and a running one takes an access on hold,
one group step, or its last. -/
theorem Move.keeps_partialResults {s t : State} (hm : Move s t) (hinv : s.Inv) (h : s.PartialResults) :
    t.PartialResults := by
  have selected : ∀ c, State.PartialResults { s with cur := c } := fun _ => h
  have running : ∀ {c : Nat} {k : Context}, s.ctxs[c]? = some k → k.Partial := fun hk => h _ (List.mem_of_getElem? hk)
  have idle : ∀ {k : Context}, k.busy = false → k.phase = .idle := fun hb => (idle_of_not_busy hb).1
  cases hm with
  | stay => exact h
  | hold c k e hk hb => exact h.putCtx hk ((running hk).hold e)
  | answer c k r hk hb => exact h.putCtx hk ((running hk).respond r)
  | write c k k' v r hk hb hw => exact h.putCtx hk (Context.partial_of_idle ((writeReg_phase hw).trans (idle hb)))
  | illegal c k hk hb => exact (selected c).endsWith (endCommand_endsWith hk rfl) (idle hb)
  | lutbuild c k hk hb => exact (selected c).lutbuildOn hk (idle hb)
  | encode c k hk hb => exact (selected c).encodeOn hk (idle hb)
  | issue c k i hk hb => exact (selected c).issueOn hk (idle hb) i
  | buildEnd c k hk hp =>
    obtain ⟨-, hi⟩ := (hinv.ok_of_ctx hk).pending_idle (by simp [hp])
    exact h.endsWith (buildStep_endCommand_endsWith hk rfl) hi
  | buildRun c k hk hp =>
    have hc := set_getElem?_self hk { k with pending := none }.startRun
    rw [← s.buildStep_ctxs] at hc
    exact h.replace (buildStep_putCtx_same s c _) hc (Context.startRun_partial _)
  | group c k hk hr hlast =>
    obtain ⟨-, hg⟩ := (hinv.ok_of_ctx hk).run_bound hr
    rw [hinv.lut_of_run hk hr]
    exact h.putCtx hk ((running hk).groupStep hr hg)
  | complete c k hk hr hlast => exact h.endsWith (endCommand_endsWith hk rfl) rfl

/-- After reset no run is in progress (R46). -/
theorem State.resetWith_partialResults (p : Params) (r : Nat) (inputs : List Event) :
    (State.resetWith p r inputs).PartialResults := by
  intro k hk
  obtain ⟨c, -, rfl⟩ := List.mem_map.mp hk
  exact Context.partial_of_idle rfl

/-- Settles O33: a step is a reset, which leaves no run, or a move, which keeps every partial result right. -/
theorem everyStepKeepsPartialResults : Obligations.EveryStepKeepsPartialResults := by
  intro s t hinv h hst
  rcases step_move s with ⟨accelEn, rest, -, hr⟩ | ⟨-, u, hu, hm⟩
  · cases hr.symm.trans hst
    exact State.resetWith_partialResults _ _ _
  · cases hu.symm.trans hst
    exact hm.keeps_partialResults hinv.dropEvent h

/-! ### A completed run (R166, R169, R182) -/

/-- What all 32 groups have produced is the scalar encoder's result. -/
theorem Context.DoneUpTo.eq_scalarEncode {k : Context} (h : k.DoneUpTo 32) :
    k.count.toNat = (scalarEncode k.scan).count ∧ k.compacted = (scalarEncode k.scan).values ∧
      k.maskWords = (scalarEncode k.scan).mask := by
  refine ⟨?_, ?_, maskWords_ext _ _ fun p hp => ?_⟩
  · exact h.count.trans (scalarPrefix_count k.scan 256).symm
  · exact h.compacted.trans (scalarPrefix_values k.scan 256).symm
  · have hbit := scalarPrefix_maskBit k.scan 256 p le_rfl
    rw [decide_eq_true hp, Bool.true_and] at hbit
    exact (h.flags p hp).trans hbit.symm

/-- Settles O34: the 32nd group step makes the partial result that of all groups, and completion records it. -/
theorem completedRunIsScalarEncode : Obligations.CompletedRunIsScalarEncode := by
  intro s c k hinv h hk hr hg
  have hok := hinv.ok_of_ctx hk
  obtain ⟨-, -, herr⟩ := hok.busy_record (by simp [Context.busy, hr])
  obtain ⟨hlen, hcap⟩ := hok.pv_zero herr
  have hg31 : k.grp.toNat = 31 := congrArg BitVec.toNat hg
  have h31 : k.DoneUpTo 31 := hg31 ▸ k.partial_iff.mp (h k (List.mem_of_getElem? hk)) hr
  have h32 : (k.groupStep buildLut).DoneUpTo 32 := Context.groupStep_doneUpTo k 31 hg31 h31
  rw [sequencerStep_last hk hr hg, hinv.lut_of_run hk hr]
  exact ⟨_, endCommand_ctx hk _, rfl, ⟨rfl, rfl, herr, hlen, hcap⟩, rfl, h32.eq_scalarEncode⟩

end Sys2Proof.Machine

/-! The reference contracts (spec/45_reference_contracts.md): what a full ENCODE leaves, held against the scalar encoder
and the decoder, and the laws that follow for COUNT, OUT and RLE (R182, R184, R185, R187, R188). -/

namespace Sys2Proof.Machine

open Sys2Proof

/-! ### The kept pixels and their number (R181, R185) -/

/-- The kept pixels are the pixels whose duplicate flag is 0, in order. -/
theorem keptOf_cons (S : Pixels) {p : Nat} (hp : p < 256) (l : List Nat) :
    keptOf S (p :: l) = if dupFlag S p then keptOf S l else S[p] :: keptOf S l := by
  rw [keptOf, List.filterMap_cons, ← keptOf, Vector.getElem?_eq_getElem hp]
  cases dupFlag S p <;> rfl

/-- There are as many kept pixels as duplicate flags equal to 0. -/
theorem keptOf_length (S : Pixels) {l : List Nat} (hl : ∀ p ∈ l, p < 256) :
    (keptOf S l).length = l.countP fun p => !dupFlag S p := by
  induction l with
  | nil => rfl
  | cons p l ih =>
    obtain ⟨hp, hl⟩ := List.forall_mem_cons.mp hl
    rw [keptOf_cons S hp, List.countP_cons, ← ih hl]
    cases dupFlag S p <;> simp

/-- A scanline from pixel p on is pixel p, then what follows it. -/
theorem toList_drop (S : Pixels) {p : Nat} (hp : p < 256) : S.toList.drop p = S[p] :: S.toList.drop (p + 1) :=
  List.drop_eq_getElem_cons (by simpa using hp)

/-- Pixels of which none is a duplicate are all kept. -/
theorem keptOf_range'_of_no_dup {S : Pixels} (h : ∀ p, p < 256 → dupFlag S p = false) :
    ∀ n p, p + n = 256 → keptOf S (List.range' p n) = S.toList.drop p
  | 0, p, hn => by simp [keptOf, show p = 256 by omega]
  | n + 1, p, hn => by
    have hp : p < 256 := by omega
    rw [List.range'_succ, keptOf_cons S hp, h p hp, if_neg Bool.false_ne_true,
      keptOf_range'_of_no_dup h n (p + 1) (by omega), toList_drop S hp]

/-- The kept count of a mask is the number of its 0 bits, in 4 bits without loss (R153). -/
theorem popcnt8_toNat_eq_popcount8 (m : Mask) : (popcnt8 m).toNat = popcount8 (m ^^^ 0xFF#8) := by
  have hle : popcount8 (m ^^^ 0xFF#8) ≤ 8 := List.countP_le_length
  rw [popcnt8, BitVec.toNat_ofNat]
  omega

/-- The kept pixels of the first n groups are the groups' kept counts together. -/
theorem keptOf_length_groups (S : Pixels) : ∀ (n : Nat) (hn : n ≤ 32),
    (keptOf S (List.range (8 * n))).length =
      ((List.finRange n).map fun g => popcount8 (dupMask S (g.castLE hn) ^^^ 0xFF#8)).sum
  | 0, _ => rfl
  | n + 1, hn => by
    have hgroup := keptOf_group S ⟨n, hn⟩
    rw [range_group, keptOf_append, List.length_append, keptOf_length_groups S n (by omega), hgroup, staged_length,
      popcnt8_toNat_eq_popcount8, List.finRange_succ_last, List.map_append, List.sum_append, List.map_map,
      List.map_singleton, List.sum_singleton]
    rfl

/-! ### The scalar encoding and the decoder (R184) -/

/-- The left neighbour of pixel p: the sentinel for pixel 0 (R143, R180). -/
def leftNeighbor (S : Pixels) : Nat → Pixel
  | 0 => sentinel
  | p + 1 => S[p]?.getD sentinel

theorem leftNeighbor_succ (S : Pixels) {p : Nat} (hp : p < 256) : leftNeighbor S (p + 1) = S[p] := by
  rw [leftNeighbor, Vector.getElem?_eq_getElem hp, Option.getD_some]

/-- A pixel is a duplicate when it equals its left neighbour (R180). -/
theorem dupFlag_iff (S : Pixels) {p : Nat} (hp : p < 256) : dupFlag S p = true ↔ S[p] = leftNeighbor S p := by
  cases p with
  | zero => exact dupFlag_zero_iff S
  | succ p => rw [dupFlag_succ_iff S p hp, leftNeighbor_succ S (by omega)]

/-- R183: from pixel p on, the decoder rebuilds the scanline from its kept pixels and its flags: it repeats the left
neighbour of a duplicate and takes every other pixel from the sequence. -/
theorem decodeFrom_keptOf {S : Pixels} {M : MaskWords} (hM : ∀ p, p < 256 → maskBit M p = dupFlag S p) :
    ∀ n p, p + n = 256 → decodeFrom M n p (leftNeighbor S p) (keptOf S (List.range' p n)) = some (S.toList.drop p)
  | 0, p, hn => by simp [decodeFrom, show p = 256 by omega]
  | n + 1, p, hn => by
    have hp : p < 256 := by omega
    have ih := decodeFrom_keptOf hM n (p + 1) (by omega)
    rw [leftNeighbor_succ S hp] at ih
    rw [decodeFrom_succ, hM p hp, List.range'_succ, keptOf_cons S hp, toList_drop S hp]
    by_cases hd : dupFlag S p = true
    · rw [if_pos hd, if_pos hd, ← (dupFlag_iff S hp).mp hd, ih]
      rfl
    · rw [if_neg hd, if_neg hd]
      exact congrArg (Option.map _) ih

/-- R184: the kept pixels and the flags of a scanline decode to the scanline. -/
theorem decodeScanline_keptOf {S : Pixels} {M : MaskWords} (hM : ∀ p, p < 256 → maskBit M p = dupFlag S p) :
    decodeScanline (keptOf S (List.range 256)) M = some S.toList := by
  rw [List.range_eq_range']
  exact decodeFrom_keptOf hM 256 0 rfl

/-- The mask of the scalar encoding holds the duplicate flags (R181). -/
theorem scalarEncode_maskBit (S : Pixels) (p : Nat) (hp : p < 256) : maskBit (scalarEncode S).mask p = dupFlag S p := by
  rw [scalarEncode, scalarPrefix_maskBit S 256 p le_rfl, decide_eq_true hp, Bool.true_and]

/-! ### What a full run has produced (R182, R185, R187) -/

/-- COUNT is the number of duplicate flags equal to 0. -/
theorem Context.DoneUpTo.count_flags {k : Context} (h : k.DoneUpTo 32) :
    k.count.toNat = (List.range 256).countP fun p => !dupFlag k.scan p :=
  h.count.trans (keptOf_length k.scan fun _ => List.mem_range.mp)

/-- COUNT is the number of 0 bits of RLE. -/
theorem Context.DoneUpTo.count_maskBits {k : Context} (h : k.DoneUpTo 32) :
    k.count.toNat = (List.range 256).countP fun p => !maskBit k.maskWords p := by
  rw [h.count_flags]
  refine List.countP_congr fun p hp => ?_
  rw [h.flags p (List.mem_range.mp hp)]

/-- A flag of RLE is a bit of one of its words (R167). -/
theorem Context.maskBit_eq_blockWord (k : Context) {n i : Nat} (hn : n < 4) (hi : i < 64) :
    maskBit k.maskWords (64 * n + i) = (blockWord k.rle[n]).getLsbD i := by
  have hword : (64 * n + i) / 64 = n := by omega
  have hbit : (64 * n + i) % 64 = i := by omega
  simp only [maskBit, Context.maskWords, hword, hbit, Vector.getElem?_eq_getElem hn, Vector.getElem_map]

/-- A bit of an RLE word is the flag of its pixel. -/
theorem Context.DoneUpTo.blockWord_getLsbD {k : Context} (h : k.DoneUpTo 32) {n i : Nat} (hn : n < 4) (hi : i < 64) :
    (blockWord k.rle[n]).getLsbD i = dupFlag k.scan (64 * n + i) := by
  rw [← k.maskBit_eq_blockWord hn hi, h.flags _ (by omega)]

/-- OUT[0..COUNT-1] and RLE decode to SCAN (R184). -/
theorem Context.DoneUpTo.decode {k : Context} (h : k.DoneUpTo 32) :
    decodeScanline k.compacted k.maskWords = some k.scan.toList := by
  rw [h.compacted]
  exact decodeScanline_keptOf h.flags

/-! ### The boundary scanlines (R188) -/

/-- Every pixel is a duplicate exactly when every pixel is 0: the first equals the sentinel, each other its neighbour. -/
theorem all_dup_iff_zero (S : Pixels) : (∀ p, p < 256 → dupFlag S p = true) ↔ ∀ i : Fin 256, S[i.val] = 0#32 := by
  constructor
  · intro h
    have hzero : ∀ p (hp : p < 256), S[p] = 0#32 := by
      intro p
      induction p with
      | zero => exact fun hp => (dupFlag_zero_iff S).mp (h 0 hp)
      | succ p ih => exact fun hp => ((dupFlag_succ_iff S p hp).mp (h _ hp)).trans (ih (by omega))
    exact fun i => hzero i.val i.isLt
  · intro h p hp
    rw [dupFlag_iff S hp, h ⟨p, hp⟩]
    cases p with
    | zero => rfl
    | succ p => rw [leftNeighbor_succ S (by omega), h ⟨p, by omega⟩]

/-- COUNT is 0 exactly when every pixel is a duplicate. -/
theorem Context.DoneUpTo.count_eq_zero_iff {k : Context} (h : k.DoneUpTo 32) :
    k.count.toNat = 0 ↔ ∀ p, p < 256 → dupFlag k.scan p = true := by
  simp [h.count_flags, List.countP_eq_zero]

/-- COUNT is 256 when no pixel is a duplicate. -/
theorem Context.DoneUpTo.count_of_no_dup {k : Context} (h : k.DoneUpTo 32)
    (hd : ∀ p, p < 256 → dupFlag k.scan p = false) : k.count.toNat = 256 := by
  have hall : ∀ p ∈ List.range 256, (!dupFlag k.scan p) = true := fun p hp => by rw [hd p (List.mem_range.mp hp)]; rfl
  rw [h.count_flags, List.countP_eq_length.mpr hall, List.length_range]

/-- A scanline without duplicates is copied whole. -/
theorem Context.DoneUpTo.out_of_no_dup {k : Context} (h : k.DoneUpTo 32)
    (hd : ∀ p, p < 256 → dupFlag k.scan p = false) : k.out = k.scan := by
  have hkept : keptOf k.scan (List.range 256) = k.scan.toList := by
    rw [List.range_eq_range']
    exact keptOf_range'_of_no_dup hd 256 0 rfl
  have hall : k.compacted = k.out.toList := by
    rw [Context.compacted, h.count_of_no_dup hd]
    exact List.take_of_length_le (Vector.length_toList).le
  exact Vector.toList_inj.mp (hall.symm.trans (h.compacted.trans hkept))

/-! ### The end of a full ENCODE -/

/-- What a full run has made of the context k (R117, R169): the record of a completed run, the result of all 32 groups
of SCAN, and OUT as it was from COUNT on. -/
structure Context.RanFully (k k' : Context) : Prop where
  record : k'.Record true true 0#4 false false
  scan : k'.scan = k.scan
  result : k'.DoneUpTo 32
  tail : ∀ i : Fin 256, k'.count.toNat ≤ i.val → k'.out[i.val] = k.out[i.val]

/-- Under its conditions a full run takes place and completes (R116, R169). -/
theorem State.Runs.ends {s : State} {k : Context} (h : s.Runs k) :
    ∃ t k', exec .encode s = .next t ∧ t.ctxs[s.cur]? = some k' ∧ k.RanFully k' := by
  obtain ⟨hcomp, hcount, hflags⟩ := k.accept.runAll_doneUpTo
  exact ⟨_, _, h.exec_encode, buildStep_endCommand_ctx h.sel.ctx _, runAll_record buildLut k,
    Context.runAll_scan buildLut k.accept, ⟨hcomp, hcount, hflags⟩, Context.runAll_out_tail buildLut k.accept⟩

/-- Settles O12: the record of a completed run, and the result of all 32 groups, which is the scalar encoder's. -/
theorem encodeMatchesScalarEncode : Obligations.EncodeMatchesScalarEncode := by
  intro s k h
  obtain ⟨t, k', hex, hctx, hrec, hscan, hres, -⟩ := h.ends
  exact ⟨t, k', hex, hctx, hrec, hscan ▸ hres.eq_scalarEncode⟩

/-- Settles O15: the values are the kept pixels and the mask is the flags, for the scalar encoder and for a run. -/
theorem encodeThenDecodeIsIdentity : Obligations.EncodeThenDecodeIsIdentity := by
  refine ⟨fun S => ?scalar, fun s k h => ?run⟩
  case scalar =>
    rw [show (scalarEncode S).values = _ from scalarPrefix_values S 256]
    exact decodeScanline_keptOf (scalarEncode_maskBit S)
  case run =>
    obtain ⟨t, k', hex, hctx, -, hscan, hres, -⟩ := h.ends
    exact ⟨t, k', hex, hctx, hscan ▸ hres.decode⟩

/-- Settles O16: COUNT is the number of kept pixels, counted by groups and by the bits of RLE. -/
theorem encodeCountLaws : Obligations.EncodeCountLaws := by
  intro s k h
  obtain ⟨t, k', hex, hctx, -, hscan, hres, -⟩ := h.ends
  have hgroups := hres.count.trans (keptOf_length_groups k'.scan 32 le_rfl)
  have hbits := hres.count_maskBits
  have htotal := List.length_eq_countP_add_countP (l := List.range 256) fun p => maskBit k'.maskWords p
  simp only [List.length_range, Bool.not_eq_true, Bool.decide_eq_false] at htotal
  exact ⟨t, k', hex, hctx, hscan ▸ hgroups, hbits, by omega, by omega⟩

/-- Settles O17: bit p mod 64 of word p / 64 is the flag of pixel 64 (p / 64) + p mod 64. -/
theorem encodeMaskIsDuplicateFlags : Obligations.EncodeMaskIsDuplicateFlags := by
  intro s k h
  obtain ⟨t, k', hex, hctx, -, hscan, hres, -⟩ := h.ends
  refine ⟨t, k', hex, hctx, fun p hp => ?_⟩
  have hword : p / 64 < 4 := by omega
  rw [getElem!_pos k'.rle _ hword, hres.blockWord_getLsbD hword (Nat.mod_lt _ (by decide)), Nat.div_add_mod, hscan]

/-- Settles O18: COUNT counts the flags that are 0, so at either bound all flags agree and RLE is constant. -/
theorem encodeBoundaryLaws : Obligations.EncodeBoundaryLaws := by
  intro s k h
  obtain ⟨t, k', hex, hctx, -, hscan, hres, htail⟩ := h.ends
  rw [← hscan]
  refine ⟨t, k', hex, hctx, hres.count_eq_zero_iff.trans (all_dup_iff_zero _), fun h0 => ⟨?out, fun n => ?ones⟩,
    fun hd => ⟨hres.count_of_no_dup hd, hres.out_of_no_dup hd, fun n => ?zeros⟩⟩
  case out => exact Vector.ext fun i hi => htail ⟨i, hi⟩ (h0 ▸ i.zero_le)
  case ones =>
    refine BitVec.eq_of_getLsbD_eq fun i hi => ?_
    rw [hres.blockWord_getLsbD n.isLt hi, hres.count_eq_zero_iff.mp h0 _ (by omega)]
    exact (BitVec.getLsbD_allOnes.trans (decide_eq_true hi)).symm
  case zeros =>
    refine BitVec.eq_of_getLsbD_eq fun i hi => ?_
    rw [hres.blockWord_getLsbD n.isLt hi, hd _ (by omega), BitVec.getLsbD_zero]

end Sys2Proof.Machine

/-! The exceptions (spec/60_exceptions.md): no step stops on one (R227, R228), and what IllegalCommand writes (R222). -/

namespace Sys2Proof.Machine

open Sys2Proof

/-! ### Control after an exception (R227, R228) -/

/-- Settles O6: a reset answers the state after reset, and any other step the state that its move leads to. -/
theorem everyStepGoesOn : Obligations.EveryStepGoesOn := by
  intro s
  rcases step_move s with ⟨accelEn, rest, -, hr⟩ | ⟨-, t, ht, -⟩
  · exact ⟨_, hr⟩
  · exact ⟨t, ht⟩

/-! ### IllegalCommand (R222) -/

/-- R97: the decoder refuses every word that is no command's. -/
theorem decode_of_no_command {w : Word} (h : ∀ i, w ≠ encode i) : ∃ e, decode w = .error e := by
  cases hd : decode w with
  | error e => exact ⟨e, rfl⟩
  | ok i => exact absurd (decode_eq_ok_iff.mp hd) (h i)

/-- The write of a word that is no command to CMD of a context in no command ends at once, whole or issued, with the
exception taken over the accepted command's cleared record (R97, R110). -/
theorem State.Presents.step_illegal {s : State} {a : Access} {c : Nat} {k : Context} {rest : List Event} {w : Word}
    (h : s.Presents a c 0x000 k rest) (ha : a.aligned = true) (hd : a.dir = .write w) (hw : ∀ i, w ≠ encode i) :
    step s = .next ({ s with inputs := rest, cur := c }.endCommand c (k.accept.takeTrap .illegalCommand)) := by
  obtain ⟨whole, hstep⟩ := step_of_presents h
  obtain ⟨e, he⟩ := decode_of_no_command hw
  have hcmd : regAt 0x000 = .cmd := rfl
  rw [hstep]
  simp only [State.performAccess, ha, hd, hcmd, State.commandWrite, he]
  rfl

/-- IllegalCommand over a cleared record records ERR = 2 alone. -/
theorem illegal_record (k : Context) :
    (k.accept.takeTrap .illegalCommand).ended.Record false false 2#4 false false :=
  ⟨rfl, rfl, rfl, rfl, rfl⟩

theorem illegal_stores (k : Context) : SameStores k (k.accept.takeTrap .illegalCommand) :=
  ⟨rfl, rfl, rfl, rfl, rfl, rfl, rfl, rfl, rfl⟩

/-- Settles O50: the decoder refuses the word, and the exception's end writes the record and the port alone. -/
theorem illegalCommandRecordsCodeTwo : Obligations.IllegalCommandRecordsCodeTwo := by
  intro s a c k rest w h hwidth hal hd hl he
  have hw : ∀ i, w ≠ encode i
    | .lutbuild => hl
    | .encode => he
  have hsame := endCommand_same { s with inputs := rest, cur := c } c (k.accept.takeTrap .illegalCommand)
  exact ⟨_, _, h.step_illegal (Access.aligned_of_word hwidth hal) hd hw, endCommand_ctx h.ctx _, illegal_record k, rfl,
    (illegal_stores k).ended, { hsame with }⟩

end Sys2Proof.Machine
